-- ==== Sys2Proof/Word.lean ====
section
/-! DEFINITION. The words of the MEOW codec block and the ports they arrive on.

Widths are those of spec/00_scope.md R8 and R11: NIBBLE_W = 4, BYTE_W = 8, CHAR_W = 8, TOKEN_LEN = 4. Every value is
unsigned (R12). -/

namespace Sys2Proof

/-- A 4-bit unsigned value, 0 to 15 (R8 NIBBLE_W). It is also an address of the LUT (R36). -/
abbrev Nibble := BitVec 4

/-- A byte, or an 8-bit character code (R8 BYTE_W, R11 CHAR_W). -/
abbrev Byte := BitVec 8

/-- A token packed into a 32-bit port word, position 0 in bits 31:24 (R57). -/
abbrev TokenWord := BitVec 32

/-- The 64-bit response of ENC_BYTE, stream character 0 in bits 63:56 (R42, R64). -/
abbrev EncodedWord := BitVec 64

/-- The 12-bit command word: OP in bits 11:8, DATA in bits 7:0 (R62). -/
abbrev CommandWord := BitVec 12

/-- A character position within a token, 0 first in the stream (R8 TOKEN_LEN, R55). -/
abbrev Pos := Fin 4

/-- What the host presents in one step: an input vector on one of the block's ports, or the RST input asserted
(R7, R62, R65, R129). The port says which unit evaluates the vector; for the PORT rows of the opcode table the vector
is the concatenated input vector that R65 names. -/
inductive PortInput where
  /-- a word on the command port of U_ENC and U_DEC (R62) -/
  | cmd (w : CommandWord)
  /-- `nib_i` of U_LUT (R65, `nnnn`) -/
  | lut (v : BitVec 4)
  /-- `tok_i` of U_CLS (R65, 32 `t`) -/
  | cls (v : BitVec 32)
  /-- `byte_i` of U_MUX (R65, `bbbbbbbb`) -/
  | muxSplit (v : BitVec 8)
  /-- the concatenation of `hi_i` and `lo_i` of U_MUX (R65, `hhhhllll`) -/
  | muxJoin (v : BitVec 8)
  /-- the 1-bit input `rst` at 1, its asserted value (R129) -/
  | rst
  deriving DecidableEq, Repr

end Sys2Proof
end

