-- ==== Sys2Proof/Syntax.lean ====
section
/-! DEFINITION. The operations of the block, one constructor per row of spec/opcode_table.json (R4, R63, R65, R129). -/

namespace Sys2Proof

/-- The nine operations (R4): four commands, four evaluations of combinational units, and the reset signal. Operands
are taken as they arrive (R66), so every value of an operand's type is legal. -/
inductive Instr where
  /-- ENC_BYTE, encode one byte (R92) -/
  | encByte (data : Byte)
  /-- DEC_CHAR, accept one encoded character (R99) -/
  | decChar (data : Byte)
  /-- DEC_END, end of the encoded stream; it has no operand (R101, R68) -/
  | decEnd
  /-- DEC_CLEAR, start a new decode stream; it has no operand (R102, R68) -/
  | decClear
  /-- TOKEN_OF, nibble-to-token LUT read (R85) -/
  | tokenOf (nib : Nibble)
  /-- CLASSIFY, token-to-nibble classifier (R89) -/
  | classify (tok : TokenWord)
  /-- SPLIT, byte decomposition (R79) -/
  | split (byte : Byte)
  /-- JOIN, byte composition (R80) -/
  | join (hi lo : Nibble)
  /-- RST, the reset input asserted (R129) -/
  | rst
  deriving DecidableEq, Repr

end Sys2Proof
end

