-- ==== Sys2Proof/Decode.lean ====
section
/-! DEFINITION. From an input vector on a port to the operation, or a rejection by name; and back.

spec/30_encoding.md R62, R63, R65, R67, R68. -/

namespace Sys2Proof

/-- Why a command word is no operation. -/
inductive DecodeError where
  /-- OP is 0x0 or 0x5 to 0xF (R67) -/
  | reservedOpcode (op : BitVec 4)
  /-- DEC_END or DEC_CLEAR with DATA other than 0x00 (R68) -/
  | reservedData (op : BitVec 4) (data : Byte)
  deriving DecidableEq, Repr

/-- What the decoder answers. -/
inductive Decoded where
  | instr (i : Instr)
  | reject (e : DecodeError)
  deriving DecidableEq, Repr

/-- Field OP of a command word, bits 11:8 (R62). -/
def opField (w : CommandWord) : BitVec 4 := w.extractLsb' 8 4

/-- Field DATA of a command word, bits 7:0 (R62). -/
def dataField (w : CommandWord) : Byte := w.extractLsb' 0 8

/-- The command opcode map (R63), with the reserved words of R67 and R68 rejected. -/
def decodeCommand (w : CommandWord) : Decoded :=
  if opField w = 0x1#4 then .instr (.encByte (dataField w))
  else if opField w = 0x2#4 then .instr (.decChar (dataField w))
  else if opField w = 0x3#4 then
    if dataField w = 0x00#8 then .instr .decEnd else .reject (.reservedData (opField w) (dataField w))
  else if opField w = 0x4#4 then
    if dataField w = 0x00#8 then .instr .decClear else .reject (.reservedData (opField w) (dataField w))
  else .reject (.reservedOpcode (opField w))

/-- The operation an input vector on a port stands for (R62, R63, R65, R129). -/
def decode (p : PortInput) : Decoded :=
  match p with
  | .cmd w => decodeCommand w
  | .lut v => .instr (.tokenOf v)
  | .cls v => .instr (.classify v)
  | .muxSplit v => .instr (.split v)
  | .muxJoin v => .instr (.join (v.extractLsb' 4 4) (v.extractLsb' 0 4))
  | .rst => .instr .rst

/-- The input vector of an operation on its port (R63, R65, R72). -/
def encode (i : Instr) : PortInput :=
  match i with
  | .encByte data => .cmd (0x1#4 ++ data)
  | .decChar data => .cmd (0x2#4 ++ data)
  | .decEnd => .cmd 0x300#12
  | .decClear => .cmd 0x400#12
  | .tokenOf nib => .lut nib
  | .classify tok => .cls tok
  | .split byte => .muxSplit byte
  | .join hi lo => .muxJoin (hi ++ lo)
  | .rst => .rst

/-- The port a number of `nbits` bits is presented on, when only its width is known: the port whose vector has that
width (a command word has 12 bits, 16 in whole bytes). A number too wide for its port is no input.
DESIGN CHOICE of log entry 3: an 8-bit vector is taken as SPLIT's, the first such row of the table. Safe. -/
def presentTableWord (nbits w : Nat) : Option PortInput :=
  if nbits = 1 then if w = 1 then some .rst else none
  else if nbits = 4 then if w < 2 ^ 4 then some (.lut (BitVec.ofNat 4 w)) else none
  else if nbits = 8 then if w < 2 ^ 8 then some (.muxSplit (BitVec.ofNat 8 w)) else none
  else if nbits = 12 ∨ nbits = 16 then if w < 2 ^ 12 then some (.cmd (BitVec.ofNat 12 w)) else none
  else if nbits = 32 then if w < 2 ^ 32 then some (.cls (BitVec.ofNat 32 w)) else none
  else none

/-- The operation a decoder answer holds, if any. -/
def Decoded.toOption (d : Decoded) : Option Instr :=
  match d with
  | .instr i => some i
  | .reject _ => none

/-- The operation the decoder reads from a word of the opcode table (log entry 3). -/
def decodeTableWord (nbits w : Nat) : Option Instr :=
  (presentTableWord nbits w).bind fun p => (decode p).toOption

end Sys2Proof
end

