-- ==== Sys2Proof/Config.lean ====
section
/-! DEFINITION. What is fixed when the block is built (spec/10_state.md R35): the parameter LETTERS, and its value for this
hardware. -/

namespace Sys2Proof

/-- LETTERS, the lower-case letter fixed at each of the four token positions (R9). Its constraints are `Letters.wf` in
WellFormed.lean. -/
structure Letters where
  l0 : Byte
  l1 : Byte
  l2 : Byte
  l3 : Byte
  deriving DecidableEq, Repr

/-- LETTERS of this hardware: `m`, `e`, `o`, `w` at positions 0 to 3 (R9, decision D2). The machine takes LETTERS as a
parameter; this is the value `State.reset` is built with. -/
def Config.letters : Letters := ⟨0x6D#8, 0x65#8, 0x6F#8, 0x77#8⟩

end Sys2Proof
end

