-- ==== Sys2Proof/Machine/Operands.lean ====
section
/-! DEFINITION. The pure functions of U_MUX, U_LUT and U_CLS: every slicing and packing of operands (spec/30_encoding.md
R57, R59, R66), the case-pattern encoder and the classifier. LETTERS is an argument throughout (R9). -/

namespace Sys2Proof.Machine

/-- The high nibble of a byte, `b[7:4]` (R40, R59). -/
def hiNibble (b : Byte) : Nibble := b.extractLsb' 4 4

/-- The low nibble of a byte, `b[3:0]` (R40, R59). -/
def loNibble (b : Byte) : Nibble := b.extractLsb' 0 4

/-- Two nibbles joined into a byte, by the shift and or of R80. -/
def joinNibbles (hi lo : Nibble) : Byte := (hi.setWidth 8 <<< 4) ||| lo.setWidth 8

/-- The character of position p of a token word, `t[31-8p : 24-8p]` (R57). -/
def tokenChar (t : TokenWord) (p : Pos) : Byte := t.extractLsb' (24 - 8 * p.val) 8

/-- Four characters packed into a token word, position 0 most significant (R57). -/
def packToken (c0 c1 c2 c3 : Byte) : TokenWord := c0 ++ c1 ++ c2 ++ c3

/-- Two tokens packed into the 64-bit response, the high-nibble token most significant (R42). -/
def packPair (t0 t1 : TokenWord) : EncodedWord := t0 ++ t1

/-- Stream character i of a 64-bit response, bits `[63-8i : 56-8i]` (R42, R64). -/
def streamChar (w : EncodedWord) (i : Fin 8) : Byte := w.extractLsb' (56 - 8 * i.val) 8

/-- The 8 characters of a 64-bit word, most significant byte first (R13 `emit_chars`). -/
def charsOfWord (w : EncodedWord) : List Byte :=
  [streamChar w 0, streamChar w 1, streamChar w 2, streamChar w 3,
   streamChar w 4, streamChar w 5, streamChar w 6, streamChar w 7]

/-- The letter LETTERS fixes at position p (R9). -/
def letterAt (L : Letters) (p : Pos) : Byte :=
  match p with
  | 0 => L.l0
  | 1 => L.l1
  | 2 => L.l2
  | 3 => L.l3

/-- The upper-case form of a lower-case ASCII letter (R11). -/
def up (c : Byte) : Byte := c - 0x20#8

/-- The character of position p in the token of nibble n: upper case when bit `3 - p` of n is 1 (R10, R83). -/
def caseChar (L : Letters) (n : Nibble) (p : Pos) : Byte :=
  if n.getLsbD (3 - p.val) then up (letterAt L p) else letterAt L p

/-- The case-pattern encoder, the source's `tokenOf` (R83). -/
def caseEncode (L : Letters) (n : Nibble) : TokenWord :=
  packToken (caseChar L n 0) (caseChar L n 1) (caseChar L n 2) (caseChar L n 3)

/-- The contents of the LUT ROM of a block built with LETTERS = L: entry n is the token of nibble n (R83, R84). -/
def romContents (L : Letters) : Vector TokenWord 16 :=
  #v[caseEncode L 0x0#4, caseEncode L 0x1#4, caseEncode L 0x2#4,
     caseEncode L 0x3#4, caseEncode L 0x4#4, caseEncode L 0x5#4,
     caseEncode L 0x6#4, caseEncode L 0x7#4, caseEncode L 0x8#4,
     caseEncode L 0x9#4, caseEncode L 0xA#4, caseEncode L 0xB#4,
     caseEncode L 0xC#4, caseEncode L 0xD#4, caseEncode L 0xE#4,
     caseEncode L 0xF#4]

/-- The letter-identity check of position p on the whole 8-bit character (R87). -/
def matchLetter (L : Letters) (p : Pos) (c : Byte) : Bool := c == letterAt L p || c == up (letterAt L p)

/-- The bit of a matching character: 1 for upper case (R88). -/
def caseBit (L : Letters) (p : Pos) (c : Byte) : BitVec 1 := if c = up (letterAt L p) then 1#1 else 0#1

/-- The outputs of U_CLS. -/
structure Classified where
  /-- `valid_o` -/
  valid : Bool
  /-- `nib_o` -/
  nib : Nibble
  deriving DecidableEq, Repr

/-- Every position of a token word holds its letter in one of its two cases (R55, R69). -/
def tokenValid (L : Letters) (t : TokenWord) : Bool :=
  matchLetter L 0 (tokenChar t 0) && matchLetter L 1 (tokenChar t 1)
    && matchLetter L 2 (tokenChar t 2) && matchLetter L 3 (tokenChar t 3)

/-- The case bits of a token word, position 0 most significant (R41, R88, R89). -/
def casePattern (L : Letters) (t : TokenWord) : Nibble :=
  caseBit L 0 (tokenChar t 0) ++ caseBit L 1 (tokenChar t 1)
    ++ caseBit L 2 (tokenChar t 2) ++ caseBit L 3 (tokenChar t 3)

/-- The classifier; `nib_o` is 0x0 on an invalid token (R89). -/
def classify (L : Letters) (t : TokenWord) : Classified :=
  if tokenValid L t then ⟨true, casePattern L t⟩ else ⟨false, 0x0#4⟩

/-- The 8 characters of one encoded byte: the high-nibble token, then the low-nibble token (R60). -/
def encodeByte (L : Letters) (b : Byte) : List Byte :=
  charsOfWord (packPair (caseEncode L (hiNibble b)) (caseEncode L (loNibble b)))

/-- The encoded stream of a byte stream, the concatenation of its encoded bytes (R61). -/
def encodeStream (L : Letters) (bs : List Byte) : List Byte := bs.flatMap (encodeByte L)

end Sys2Proof.Machine
end

