-- ==== Sys2Proof/WellFormed.lean ====
section
/-! DEFINITION. The checks the spec makes on what the block is built with and on what the host sends.

An operation itself needs no check: its operands carry their widths, ENC_BYTE and DEC_CHAR take every DATA value (R68),
and every input vector of a unit port is legal (R65). What can be ill-formed is LETTERS (R9) and a command word
(R67, R68). -/

namespace Sys2Proof

/-- A lower-case ASCII letter code, 0x61 to 0x7A (R9). -/
def isLowerLetter (c : Byte) : Bool := decide (0x61 ≤ c.toNat) && decide (c.toNat ≤ 0x7A)

/-- Each letter of LETTERS is a lower-case ASCII letter code (R9, first constraint). -/
def Letters.allLower (L : Letters) : Bool :=
  isLowerLetter L.l0 && isLowerLetter L.l1 && isLowerLetter L.l2 && isLowerLetter L.l3

/-- The four letters are pairwise distinct (R9, second constraint). -/
def Letters.allDistinct (L : Letters) : Bool :=
  decide (L.l0 ≠ L.l1) && decide (L.l0 ≠ L.l2) && decide (L.l0 ≠ L.l3)
    && decide (L.l1 ≠ L.l2) && decide (L.l1 ≠ L.l3) && decide (L.l2 ≠ L.l3)

/-- The constraints R9 puts on LETTERS. -/
def Letters.wf (L : Letters) : Bool := L.allLower && L.allDistinct

/-- OP is one of the four command codes 0x1 to 0x4 (R63, R67). -/
def CommandWord.opAssigned (w : CommandWord) : Bool := decide (0x100 ≤ w.toNat) && decide (w.toNat < 0x500)

/-- A DEC_END or DEC_CLEAR word has DATA = 0x00: none of 0x301 to 0x3FF and 0x401 to 0x4FF (R68). -/
def CommandWord.dataAllowed (w : CommandWord) : Bool :=
  !(decide (0x301 ≤ w.toNat) && decide (w.toNat ≤ 0x3FF)) && !(decide (0x401 ≤ w.toNat) && decide (w.toNat ≤ 0x4FF))

/-- A command word the host may issue: not one of the reserved words of R67 and R68. -/
def CommandWord.wf (w : CommandWord) : Bool := w.opAssigned && w.dataAllowed

end Sys2Proof
end

