-- ==== Sys2Proof/Machine/State.lean ====
section
/-! DEFINITION. The state of the block (spec/10_state.md R18), the outputs of its last step, the reasons a step can stop,
and the state after reset (R33). -/

namespace Sys2Proof.Machine

/-- The LUT index space: sixteen 32-bit entries, addressed by a nibble (R30, R36).
DESIGN CHOICE of log entry 6: whole entries in index order, no byte cells. Safe. -/
abbrev Memory := Vector TokenWord 16

/-- TBUF, the token buffer of four 8-bit slots (R23). -/
structure TokenBuf where
  c0 : Byte
  c1 : Byte
  c2 : Byte
  c3 : Byte
  deriving DecidableEq, Repr

/-- The response fields a command drives in its own step (R64). A field a step does not drive is 0 (R13). -/
structure Response where
  /-- `out.chars[63:0]`, driven by ENC_BYTE -/
  chars : EncodedWord
  /-- `out.chars_valid`, driven by ENC_BYTE -/
  charsValid : Bool
  /-- `out.byte_valid`, driven by DEC_CHAR -/
  byteValid : Bool
  /-- `out.byte[7:0]`, driven by DEC_CHAR -/
  byte : Byte
  /-- `out.end_ok`, driven by DEC_END -/
  endOk : Bool
  deriving DecidableEq, Repr

/-- No response field driven (R13). -/
def Response.zero : Response := ⟨0#64, false, false, 0x00#8, false⟩

/-- The outputs of the unit port evaluated in a step (R65).
DESIGN CHOICE of log entry 5: a unit that is not evaluated shows no value. Safe. -/
inductive UnitOut where
  /-- the step evaluated no unit port -/
  | none
  /-- U_LUT: `tok_o` (R85) -/
  | token (tok : TokenWord)
  /-- U_CLS: `valid_o`, `nib_o` (R89) -/
  | classified (valid : Bool) (nib : Nibble)
  /-- U_MUX split: `hi_o`, `lo_o` (R79) -/
  | nibbles (hi lo : Nibble)
  /-- U_MUX join: `byte_o` (R80) -/
  | byte (b : Byte)
  deriving DecidableEq, Repr

/-- The state of the block, with the outputs of its last step and the operations the host has issued. -/
structure State where
  /-- the build-time parameter LETTERS (R9): no register, and no step changes it (R35).
  DESIGN CHOICE of log entry 13: carried here, since `exec` and `step` take no other argument. Safe. -/
  letters : Letters
  /-- the LUT ROM (R30) -/
  lut : Memory
  /-- PHASE: 0 = EXPECT_HIGH, 1 = EXPECT_LOW (R21) -/
  phase : BitVec 1
  /-- CNT: characters of the current token received (R22) -/
  cnt : BitVec 2
  /-- TBUF (R23) -/
  tbuf : TokenBuf
  /-- HI: the high nibble of the byte being decoded (R24) -/
  hi : Nibble
  /-- ERR: 0 NONE, 1 BAD_LETTER, 2 PARTIAL_TOKEN, 3 ODD_TOKEN (R25, R112) -/
  err : BitVec 2
  /-- the response of the last step (R64; log entry 4) -/
  out : Response
  /-- the unit outputs of the last step (R65; log entry 5) -/
  unitOut : UnitOut
  /-- the output character stream, oldest first (R64; log entry 7) -/
  charsOut : List Byte
  /-- the output byte stream, oldest first (R64; log entry 7) -/
  bytesOut : List Byte
  /-- the model's own field: operations issued and not yet run, oldest first (R16, R50; log entry 1) -/
  input : List PortInput
  deriving DecidableEq, Repr

/-- Reasons for which the machine stops with a fault. The block has none: a FormatError is a state of the decoder, not
a stop (R114, R116; log entry 9). Safe. -/
inductive Fault : Type
  deriving DecidableEq, Repr

/-- Reasons for which a step has no meaning. -/
inductive Refusal where
  /-- raised by an arm of `exec` whose instruction has no meaning yet; no arm is one now. Safe. -/
  | notModelled (mnemonic : String)
  /-- raised by `step` on a command word of R67 or R68, to which the spec gives no meaning. Safe. -/
  | reservedCommand (e : DecodeError)
  deriving DecidableEq, Repr

/-- The memory holds the ROM's contents for LETTERS = L, its one form (R31, R84). -/
def Memory.wf (L : Letters) (m : Memory) : Bool := decide (m = romContents L)

/-- A block built with LETTERS = L, of any L that R9 allows, right after reset (R33, R130). The LUT has its constant
contents (R31).
DESIGN CHOICE of log entry 8: no response, no unit output, empty streams, no operation pending. Unsafe. -/
def State.resetWith (L : Letters) (_allowed : L.wf = true) : State :=
  { letters := L
    lut := romContents L
    phase := 0#1
    cnt := 0#2
    tbuf := ⟨0x00#8, 0x00#8, 0x00#8, 0x00#8⟩
    hi := 0x0#4
    err := 0#2
    out := Response.zero
    unitOut := .none
    charsOut := []
    bytesOut := []
    input := [] }

/-- This hardware, built with LETTERS = meow, right after reset (R9, R33). -/
def State.reset : State := State.resetWith Config.letters (by decide)

end Sys2Proof.Machine
end

