-- ==== Sys2Proof/Machine/Flags.lean ====
section
/-! DEFINITION. The status outputs, the error codes and the response flags (spec/10_state.md R26, R27, R28;
spec/60_exceptions.md R112). -/

namespace Sys2Proof.Machine

/-- The FormatErrors of the block (R112). -/
inductive FormatError where
  /-- a completed token has a character that is not its position's letter -/
  | badLetter
  /-- the stream ended with 1 to 3 characters of an unfinished token -/
  | partialToken
  /-- the stream ended after an odd number of whole tokens -/
  | oddToken
  deriving DecidableEq, Repr

/-- The code ERR holds for a FormatError (R112). -/
def errorCode (e : FormatError) : BitVec 2 :=
  match e with
  | .badLetter => 1#2
  | .partialToken => 2#2
  | .oddToken => 3#2

/-- `err_o`, the ERR field as an output of its own (R28). -/
def errO (s : State) : BitVec 2 := s.err

/-- `status_o[4:0]`: ERR, PHASE and CNT, driven at all times (R28). -/
def statusO (s : State) : BitVec 5 := s.err ++ s.phase ++ s.cnt

/-- The decoder's three states (R26). -/
inductive DecoderState where
  | expectHighToken
  | expectLowToken
  | error
  deriving DecidableEq, Repr

/-- The decoder state the registers stand for (R26). -/
def decoderState (s : State) : DecoderState :=
  if s.err = 0#2 then (if s.phase = 0#1 then .expectHighToken else .expectLowToken) else .error

/-- `out.end_ok`: 1 when ERR = 0 after the step (R64, R101). -/
def endOkOf (s : State) : Bool := decide (s.err = 0#2)

/-- `out.valid`, the response bit of CLASSIFY (R27; log entry 5). -/
def outValid (s : State) : Bool :=
  match s.unitOut with
  | .classified v _ => v
  | .none => false
  | .token _ => false
  | .nibbles _ _ => false
  | .byte _ => false

end Sys2Proof.Machine
end

