-- ==== Sys2Proof/Machine/Ops.lean ====
section
/-! DEFINITION. The named operations over the state that the meanings are made of: fetching an operation, driving the
responses, the one memory read, the decoder registers, raising a FormatError and leaving the Error state. -/

namespace Sys2Proof.Machine

/-- The next operation the host has issued, and the state without it (R16, R50; log entry 1). -/
def fetch (s : State) : Option (PortInput × State) :=
  match s.input with
  | [] => none
  | p :: rest => some (p, { s with input := rest })

/-- The host issues one operation ahead of those pending (log entry 1). -/
def present (p : PortInput) (s : State) : State := { s with input := p :: s.input }

/-- The start of a step: no response field and no unit output of an earlier step survives (R13, R27; log entries 4, 5). -/
def beginStep (s : State) : State := { s with out := Response.zero, unitOut := .none }

/-- The read of LUT entry n, the block's only memory access (R13, R76). Every address exists (R37). -/
def lutRead (s : State) (n : Nibble) : TokenWord := s.lut[n.toNat]

/-- Drives the outputs of a unit port (R65). -/
def driveUnit (u : UnitOut) (s : State) : State := { s with unitOut := u }

/-- `out.chars <- w` and `out.chars_valid <- 1` (R64). -/
def driveChars (w : EncodedWord) (s : State) : State :=
  { s with out := { s.out with chars := w, charsValid := true } }

/-- `emit_chars(w)` (R13). -/
def emitChars (w : EncodedWord) (s : State) : State := { s with charsOut := s.charsOut ++ charsOfWord w }

/-- `out.byte <- b` and `out.byte_valid <- 1` (R64). -/
def driveByte (b : Byte) (s : State) : State := { s with out := { s.out with byte := b, byteValid := true } }

/-- `emit_byte(b)` (R13). -/
def emitByte (b : Byte) (s : State) : State := { s with bytesOut := s.bytesOut ++ [b] }

/-- `out.end_ok <- v` (R64). -/
def driveEndOk (v : Bool) (s : State) : State := { s with out := { s.out with endOk := v } }

/-- `PHASE <- v`. -/
def setPhase (v : BitVec 1) (s : State) : State := { s with phase := v }

/-- `CNT <- v`. -/
def setCnt (v : BitVec 2) (s : State) : State := { s with cnt := v }

/-- `HI <- v`. -/
def setHi (v : Nibble) (s : State) : State := { s with hi := v }

/-- Slot p of the token buffer, `TBUF[p]` (R13, R23). -/
def tbufRead (b : TokenBuf) (p : Pos) : Byte :=
  match p with
  | 0 => b.c0
  | 1 => b.c1
  | 2 => b.c2
  | 3 => b.c3

/-- The token buffer with slot p replaced, `TBUF[p] <- c` (R13, R23). -/
def tbufWrite (b : TokenBuf) (p : Pos) (c : Byte) : TokenBuf :=
  match p with
  | 0 => { b with c0 := c }
  | 1 => { b with c1 := c }
  | 2 => { b with c2 := c }
  | 3 => { b with c3 := c }

/-- `TBUF[CNT] <- c` (R99). -/
def storeChar (c : Byte) (s : State) : State := { s with tbuf := tbufWrite s.tbuf s.cnt.toFin c }

/-- The token word of the four slots (R99). -/
def tbufToken (b : TokenBuf) : TokenWord := packToken (tbufRead b 0) (tbufRead b 1) (tbufRead b 2) (tbufRead b 3)

/-- TAKING AN EXCEPTION: `raise FormatError(code)` writes ERR and nothing else (R113, R114). No pc, no status and no
cause is saved, and control goes nowhere. -/
def raiseFormatError (e : FormatError) (s : State) : State := { s with err := errorCode e }

/-- LEAVING THE ERROR STATE: every decoder register takes its reset value (R33, R102, R117, R129). The LUT is not
touched. -/
def clearDecoder (s : State) : State :=
  { s with phase := 0#1, cnt := 0#2, tbuf := ⟨0x00#8, 0x00#8, 0x00#8, 0x00#8⟩, hi := 0x0#4, err := 0#2 }

end Sys2Proof.Machine
end

