-- ==== Sys2Proof/Machine/Decoder.lean ====
section
/-! DEFINITION. U_DEC: DEC_CHAR, DEC_END and DEC_CLEAR (spec/43_decoder.md). -/

namespace Sys2Proof.Machine

/-- TokenStep, the internal step on the fourth character of a token (R100). -/
def tokenStep (t : TokenWord) (s : State) : State :=
  let r := classify s.letters t
  if r.valid = true then
    if s.phase = 0#1 then setPhase 1#1 (setHi r.nib s)
    else
      let b := joinNibbles s.hi r.nib
      setPhase 0#1 (emitByte b (driveByte b s))
  else raiseFormatError .badLetter s

/-- What DEC_CHAR does outside the Error state (R99). -/
def acceptChar (c : Byte) (s : State) : State :=
  let s1 := storeChar c s
  if s.cnt = 3#2 then tokenStep (tbufToken s1.tbuf) (setCnt 0#2 s1)
  else setCnt (s.cnt + 1#2) s1

/-- DEC_CHAR (R99). In the Error state nothing changes and nothing is emitted (R116). -/
def execDecChar (data : Byte) (s : State) : Host.Outcome State Fault Refusal :=
  .next (if s.err = 0#2 then acceptChar data (beginStep s) else beginStep s)

/-- The length checks of DEC_END, PARTIAL_TOKEN before ODD_TOKEN (R101, R119). -/
def endCheck (s : State) : State :=
  if s.err = 0#2 then
    if s.cnt = 0#2 then
      if s.phase = 1#1 then raiseFormatError .oddToken s else s
    else raiseFormatError .partialToken s
  else s

/-- DEC_END (R101). -/
def execDecEnd (s : State) : Host.Outcome State Fault Refusal :=
  let s1 := endCheck (beginStep s)
  .next (driveEndOk (endOkOf s1) s1)

/-- DEC_CLEAR (R102). -/
def execDecClear (s : State) : Host.Outcome State Fault Refusal :=
  .next (clearDecoder (beginStep s))

end Sys2Proof.Machine
end

