-- ==== Sys2Proof/Machine/Encoder.lean ====
section
/-! DEFINITION. U_ENC: ENC_BYTE (spec/42_encoder.md). -/

namespace Sys2Proof.Machine

/-- ENC_BYTE: a split and two LUT reads, the high nibble's token first (R92). -/
def execEncByte (data : Byte) (s : State) : Host.Outcome State Fault Refusal :=
  let w := packPair (lutRead s (hiNibble data)) (lutRead s (loNibble data))
  .next (emitChars w (driveChars w (beginStep s)))

end Sys2Proof.Machine
end

