-- ==== Sys2Proof/Machine/LutClassifier.lean ====
section
/-! DEFINITION. U_LUT and U_CLS: TOKEN_OF and CLASSIFY (spec/41_lut_classifier.md). -/

namespace Sys2Proof.Machine

/-- TOKEN_OF, one read of the LUT (R85). -/
def execTokenOf (nib : Nibble) (s : State) : Host.Outcome State Fault Refusal :=
  .next (driveUnit (.token (lutRead s nib)) (beginStep s))

/-- CLASSIFY (R89), by the letters the block is built with (R9). It does not read the LUT (R36). -/
def execClassify (tok : TokenWord) (s : State) : Host.Outcome State Fault Refusal :=
  let r := classify s.letters tok
  .next (driveUnit (.classified r.valid r.nib) (beginStep s))

end Sys2Proof.Machine
end

