-- ==== Sys2Proof/Machine/Mux.lean ====
section
/-! DEFINITION. U_MUX: SPLIT and JOIN (spec/40_byte_mux.md). -/

namespace Sys2Proof.Machine

/-- SPLIT (R79). -/
def execSplit (byte : Byte) (s : State) : Host.Outcome State Fault Refusal :=
  .next (driveUnit (.nibbles (hiNibble byte) (loNibble byte)) (beginStep s))

/-- JOIN (R80). -/
def execJoin (hi lo : Nibble) (s : State) : Host.Outcome State Fault Refusal :=
  .next (driveUnit (.byte (joinNibbles hi lo)) (beginStep s))

end Sys2Proof.Machine
end

