-- ==== Sys2Proof/Machine/Reset.lean ====
section
/-! DEFINITION. The reset input RST (spec/70_reset_and_hazards.md R129). -/

namespace Sys2Proof.Machine

/-- RST: the decoder registers take their reset values; nothing is emitted and the LUT is not changed (R129). -/
def execRst (s : State) : Host.Outcome State Fault Refusal :=
  .next (clearDecoder (beginStep s))

end Sys2Proof.Machine
end

