-- ==== Sys2Proof/Machine/Dispatch.lean ====
section
/-! DEFINITION. The meaning of each operation, one arm per constructor. -/

namespace Sys2Proof.Machine

def exec (i : Instr) (s : State) : Host.Outcome State Fault Refusal :=
  match i with
  | .encByte data => Sys2Proof.Machine.execEncByte data s
  | .decChar data => Sys2Proof.Machine.execDecChar data s
  | .decEnd => Sys2Proof.Machine.execDecEnd s
  | .decClear => Sys2Proof.Machine.execDecClear s
  | .tokenOf nib => Sys2Proof.Machine.execTokenOf nib s
  | .classify tok => Sys2Proof.Machine.execClassify tok s
  | .split byte => Sys2Proof.Machine.execSplit byte s
  | .join hi lo => Sys2Proof.Machine.execJoin hi lo s
  | .rst => Sys2Proof.Machine.execRst s

end Sys2Proof.Machine
end

