-- ==== Sys2Proof/Machine/Step.lean ====
section
/-! DEFINITION. One step of the machine: one operation of the host (spec/00_scope.md R7, R14). -/

namespace Sys2Proof.Machine

/-- Takes the next operation the host has issued, decodes it and runs it. A reserved command word is refused (R67,
R68). With no operation pending the block performs nothing (R16; DEDUCED, log entry 2). -/
def step (s : State) : Host.Outcome State Fault Refusal :=
  match fetch s with
  | none => .next s
  | some (p, s') =>
    match decode p with
    | .instr i => exec i s'
    | .reject e => .refused (.reservedCommand e)

/-- The state in which the host has issued the operation of a table word, ahead of any other pending (log entries 1
and 3). -/
def State.withFetchWord (s : State) (nbits w : Nat) : State :=
  match presentTableWord nbits w with
  | some p => present p s
  | none => s

end Sys2Proof.Machine
end

