-- ==== Sys2Proof/Machine/Assembler.lean ====
section
/-! DEFINITION. The written syntax of operations (spec/30_encoding.md R72), as lists of characters: a printer and a
reader. DESIGN CHOICE of log entry 10 for blanks and the case of digits. Safe: no step uses it. Quoted characters outside
ASCII are log entry 14. -/

namespace Sys2Proof.Machine

/-- A hexadecimal digit, upper case. -/
def printHexDigit (n : Nibble) : Char := Char.ofNat (if n.toNat < 10 then 48 + n.toNat else 55 + n.toNat)

/-- The value of a hexadecimal digit of either case. -/
def readHexDigit (c : Char) : Option Nibble :=
  if 48 ≤ c.toNat ∧ c.toNat ≤ 57 then some (BitVec.ofNat 4 (c.toNat - 48))
  else if 65 ≤ c.toNat ∧ c.toNat ≤ 70 then some (BitVec.ofNat 4 (c.toNat - 55))
  else if 97 ≤ c.toNat ∧ c.toNat ≤ 102 then some (BitVec.ofNat 4 (c.toNat - 87))
  else none

/-- The 8-bit code of a written character (R12): up to 0x7F its ASCII code (R11).
DESIGN CHOICE of log entry 14: from 0x80 to 0xFF, where ASCII has no code, the Unicode code point; above it, none. Unsafe
for a claim about the text of such a character. -/
def charCode (c : Char) : Option Byte :=
  if c.toNat < 256 then some (BitVec.ofNat 8 c.toNat) else none

/-- `0xH`. -/
def printNibble (n : Nibble) : List Char := ['0', 'x', printHexDigit n]

/-- `0xHH`. -/
def printByte (b : Byte) : List Char :=
  ['0', 'x', printHexDigit (b.extractLsb' 4 4), printHexDigit (b.extractLsb' 0 4)]

/-- `0xHHHHHHHH`. -/
def printWord (t : TokenWord) : List Char :=
  ['0', 'x', printHexDigit (t.extractLsb' 28 4), printHexDigit (t.extractLsb' 24 4),
   printHexDigit (t.extractLsb' 20 4), printHexDigit (t.extractLsb' 16 4), printHexDigit (t.extractLsb' 12 4),
   printHexDigit (t.extractLsb' 8 4), printHexDigit (t.extractLsb' 4 4), printHexDigit (t.extractLsb' 0 4)]

/-- What follows a given prefix, if the text begins with it. -/
def afterPrefix (pre cs : List Char) : Option (List Char) :=
  match pre, cs with
  | [], cs => some cs
  | p :: pre, c :: cs => if p = c then afterPrefix pre cs else none
  | _ :: _, [] => none

/-- Reads `0xH` and nothing after it. -/
def readNibble (cs : List Char) : Option Nibble :=
  match afterPrefix ['0', 'x'] cs with
  | some [a] => readHexDigit a
  | _ => none

/-- Reads `0xHH` and nothing after it. -/
def readByte (cs : List Char) : Option Byte :=
  match afterPrefix ['0', 'x'] cs with
  | some [a, b] => do
    let h ← readHexDigit a
    let l ← readHexDigit b
    some (h ++ l)
  | _ => none

/-- Reads `0xHHHHHHHH` and nothing after it. -/
def readWord (cs : List Char) : Option TokenWord :=
  match afterPrefix ['0', 'x'] cs with
  | some [a, b, c, d, e, f, g, h] => do
    let a ← readHexDigit a
    let b ← readHexDigit b
    let c ← readHexDigit c
    let d ← readHexDigit d
    let e ← readHexDigit e
    let f ← readHexDigit f
    let g ← readHexDigit g
    let h ← readHexDigit h
    some (a ++ b ++ c ++ d ++ e ++ f ++ g ++ h)
  | _ => none

/-- The apostrophe around a written character (R72). -/
def quoteMark : Char := Char.ofNat 39

/-- The quotation mark around a written token (R72). -/
def doubleQuoteMark : Char := Char.ofNat 34

/-- DEC_CHAR's operand: `'c'` or `0xHH` (R72). -/
def readCharOperand (cs : List Char) : Option Byte :=
  match cs with
  | [q, c, r] => if q = quoteMark ∧ r = quoteMark then charCode c else none
  | _ => readByte cs

/-- CLASSIFY's operand: `"tttt"` or `0xHHHHHHHH` (R72). -/
def readTokenOperand (cs : List Char) : Option TokenWord :=
  match cs with
  | [q, a, b, c, d, r] =>
    if q = doubleQuoteMark ∧ r = doubleQuoteMark then do
      let a ← charCode a
      let b ← charCode b
      let c ← charCode c
      let d ← charCode d
      some (a ++ b ++ c ++ d)
    else none
  | _ => readWord cs

/-- JOIN's operands: `<hi>, <lo>` (R72). -/
def readJoinOperands (cs : List Char) : Option (Nibble × Nibble) :=
  match cs with
  | [z, x, a, comma, blank, y, w, b] =>
    if comma = ',' ∧ blank = ' ' then do
      let hi ← readNibble [z, x, a]
      let lo ← readNibble [y, w, b]
      some (hi, lo)
    else none
  | _ => none

def nameEncByte : List Char := ['E', 'N', 'C', '_', 'B', 'Y', 'T', 'E', ' ']
def nameDecChar : List Char := ['D', 'E', 'C', '_', 'C', 'H', 'A', 'R', ' ']
def nameDecEnd : List Char := ['D', 'E', 'C', '_', 'E', 'N', 'D']
def nameDecClear : List Char := ['D', 'E', 'C', '_', 'C', 'L', 'E', 'A', 'R']
def nameTokenOf : List Char := ['T', 'O', 'K', 'E', 'N', '_', 'O', 'F', ' ']
def nameClassify : List Char := ['C', 'L', 'A', 'S', 'S', 'I', 'F', 'Y', ' ']
def nameSplit : List Char := ['S', 'P', 'L', 'I', 'T', ' ']
def nameJoin : List Char := ['J', 'O', 'I', 'N', ' ']
def nameRst : List Char := ['R', 'S', 'T']

/-- An operation as R72 writes it, its operands in hexadecimal. -/
def printInstr (i : Instr) : List Char :=
  match i with
  | .encByte data => nameEncByte ++ printByte data
  | .decChar data => nameDecChar ++ printByte data
  | .decEnd => nameDecEnd
  | .decClear => nameDecClear
  | .tokenOf nib => nameTokenOf ++ printNibble nib
  | .classify tok => nameClassify ++ printWord tok
  | .split byte => nameSplit ++ printByte byte
  | .join hi lo => nameJoin ++ printNibble hi ++ [',', ' '] ++ printNibble lo
  | .rst => nameRst

/-- An operation with no operand, when the whole text is its name. -/
def readPlain (name : List Char) (i : Instr) (cs : List Char) : Option Instr :=
  if cs = name then some i else none

/-- An operation whose name is followed by an operand. -/
def readWith {α : Type} (name : List Char) (operand : List Char → Option α) (mk : α → Instr) (cs : List Char) :
    Option Instr :=
  (afterPrefix name cs).bind fun rest => (operand rest).map mk

/-- The operation a text in the syntax of R72 stands for. -/
def parseInstr (cs : List Char) : Option Instr :=
  (readWith nameEncByte readByte .encByte cs)
    <|> (readWith nameDecChar readCharOperand .decChar cs)
    <|> (readPlain nameDecEnd .decEnd cs)
    <|> (readPlain nameDecClear .decClear cs)
    <|> (readWith nameTokenOf readNibble .tokenOf cs)
    <|> (readWith nameClassify readTokenOperand .classify cs)
    <|> (readWith nameSplit readByte .split cs)
    <|> (readWith nameJoin readJoinOperands (fun p => .join p.1 p.2) cs)
    <|> (readPlain nameRst .rst cs)

end Sys2Proof.Machine
end

