-- ==== Sys2Proof/Machine/Pseudo.lean ====
section
/-! DEFINITION. The pseudo-operations of spec/30_encoding.md R73, each as the list of commands it expands to. -/

namespace Sys2Proof.Machine

/-- `ENC_BYTES b0, …, bk` (R73). -/
def encBytes (bs : List Byte) : List Instr := bs.map .encByte

/-- `ENC_STR "s"`: ENC_BYTES of the bytes of s in order (R73). -/
def encStr (s : List Byte) : List Instr := encBytes s

/-- `DEC_TOKEN "tttt"`: four DEC_CHAR (R73). -/
def decToken (t0 t1 t2 t3 : Byte) : List Instr := [.decChar t0, .decChar t1, .decChar t2, .decChar t3]

/-- `DEC_STR "s"`: one DEC_CHAR per character, in order (R73). -/
def decStr (s : List Byte) : List Instr := s.map .decChar

/-- `DECODE "s"`: one decode call (R73, R106). -/
def decodeCall (s : List Byte) : List Instr := .decClear :: (decStr s ++ [.decEnd])

/-- `ENCODE b0, …, bk`: one encode call; the empty list expands to nothing (R73, R95). -/
def encodeCall (bs : List Byte) : List Instr := encBytes bs

end Sys2Proof.Machine
end

