-- ==== Sys2Proof/Safety.lean ====
section
/-! DEFINITION. The terms claims are made in: runs of operations, what the host may send, the start of a stream, the
outcome of a decode call, what the encoded stream means, and the invariant of the machine. -/

namespace Sys2Proof.Machine

/-- The meanings of a list of operations, one after the other (spec/20_memory.md R50). -/
def runOps (is : List Instr) (s : State) : Host.Outcome State Fault Refusal :=
  match is with
  | [] => .next s
  | i :: rest =>
    match exec i s with
    | .next t => runOps rest t
    | .fault r => .fault r
    | .refused r => .refused r

/-- An input the host may send: anything but a reserved command word (R67, R68, R135). -/
def legalInput (p : PortInput) : Bool := (decode p).toOption.isSome

/-- The operations that act on the decoder registers: the commands of U_DEC, and RST (R18, R29). -/
def isDecoderOp (i : Instr) : Bool :=
  match i with
  | .decChar _ => true
  | .decEnd => true
  | .decClear => true
  | .rst => true
  | .encByte _ => false
  | .tokenOf _ => false
  | .classify _ => false
  | .split _ => false
  | .join _ _ => false

/-- The evaluations of the combinational units (R4, R65). -/
def isUnitOp (i : Instr) : Bool :=
  match i with
  | .tokenOf _ => true
  | .classify _ => true
  | .split _ => true
  | .join _ _ => true
  | .encByte _ => false
  | .decChar _ => false
  | .decEnd => false
  | .decClear => false
  | .rst => false

/-- The two operations that put every decoder register at its reset value (R117). -/
def isClearing (i : Instr) : Bool := decide (i = .decClear) || decide (i = .rst)

/-- The place in the encoded stream within a pair of tokens, 0 to 7 (R20). -/
def streamPosition (s : State) : Nat := 4 * s.phase.toNat + s.cnt.toNat

/-- The registers stand at the start of an encoded stream (R103, R130): ExpectHighToken, no character of a token
received, no error. -/
abbrev streamStart (s : State) : Prop := s.phase = 0#1 ∧ s.cnt = 0#2 ∧ s.err = 0#2

/-- Two states agree on the five decoder registers of R18. -/
abbrev sameDecoder (s t : State) : Prop :=
  t.phase = s.phase ∧ t.cnt = s.cnt ∧ t.tbuf = s.tbuf ∧ t.hi = s.hi ∧ t.err = s.err

/-- The outcome of a decode call that led from s to t: the bytes it emitted and its `out.end_ok` (R136). -/
def decodeCallOutcome (s t : State) : List Byte × Bool := (t.bytesOut.drop s.bytesOut.length, t.out.endOk)

/-- The bytes a character stream stands for, up to the first pair of tokens that is not valid or not whole (R106). -/
def streamBytes (L : Letters) (cs : List Byte) : List Byte :=
  match cs with
  | c0 :: c1 :: c2 :: c3 :: c4 :: c5 :: c6 :: c7 :: rest =>
    if tokenValid L (packToken c0 c1 c2 c3) && tokenValid L (packToken c4 c5 c6 c7) then
      joinNibbles (casePattern L (packToken c0 c1 c2 c3)) (casePattern L (packToken c4 c5 c6 c7)) :: streamBytes L rest
    else []
  | _ => []

/-- The first error of a character stream that ends where the list ends, or 0 for none (R106, R112, R119). `odd` says
whether an odd number of whole tokens came before. -/
def streamError (L : Letters) (odd : Bool) (cs : List Byte) : BitVec 2 :=
  match cs with
  | [] => if odd then 3 else 0
  | c0 :: c1 :: c2 :: c3 :: rest =>
    if tokenValid L (packToken c0 c1 c2 c3) then streamError L (!odd) rest else 1
  | _ => 2

/-- Every whole 4-character group of a stream is a valid token (R55, R106). -/
def allTokensValid (L : Letters) (cs : List Byte) : Bool :=
  match cs with
  | c0 :: c1 :: c2 :: c3 :: rest => tokenValid L (packToken c0 c1 c2 c3) && allTokensValid L rest
  | _ => true

/-- Two states of blocks built alike that agree on everything a port shows, and on those hidden slots that the current stream has written:
TBUF below CNT, and HI while a high nibble is pending (R34, R105). -/
structure AgreeOutside (s t : State) : Prop where
  letters : t.letters = s.letters
  lut : t.lut = s.lut
  phase : t.phase = s.phase
  cnt : t.cnt = s.cnt
  err : t.err = s.err
  out : t.out = s.out
  unitOut : t.unitOut = s.unitOut
  charsOut : t.charsOut = s.charsOut
  bytesOut : t.bytesOut = s.bytesOut
  input : t.input = s.input
  written : s.err = 0#2 → ∀ p : Pos, p.val < s.cnt.toNat → tbufRead t.tbuf p = tbufRead s.tbuf p
  pending : s.err = 0#2 → s.phase = 1#1 → t.hi = s.hi

/-- The machine of a block built with LETTERS = L, for any L that R9 allows; `core` is that of meow. -/
def coreWith (L : Letters) (h : L.wf = true) : Host.Core := { core with reset := State.resetWith L h }

/-- The invariant of the machine: what the rules promise of every state a run from reset reaches. -/
structure Inv (s : State) : Prop where
  /-- the block is built with letters that R9 allows -/
  letters : s.letters.wf = true
  /-- the LUT holds its contents (R31) -/
  rom : Memory.wf s.letters s.lut = true
  /-- BAD_LETTER leaves CNT at 0 and the failing token in TBUF (R99, R114) -/
  badLetter : s.err = 1#2 → s.cnt = 0#2 ∧ tokenValid s.letters (tbufToken s.tbuf) = false
  /-- PARTIAL_TOKEN is raised mid-token (R101, R114) -/
  partialToken : s.err = 2#2 → s.cnt ≠ 0#2
  /-- ODD_TOKEN is raised after a whole high token (R101, R114) -/
  oddToken : s.err = 3#2 → s.cnt = 0#2 ∧ s.phase = 1#1
  /-- right after a valid high token, HI is the nibble of the token in TBUF (R100) -/
  pendingNibble : s.phase = 1#1 → s.cnt = 0#2 → s.err ≠ 1#2 → classify s.letters (tbufToken s.tbuf) = ⟨true, s.hi⟩
  /-- `out.byte` is 0x00 when `out.byte_valid` is 0 (R64) -/
  byteUndriven : s.out.byteValid = false → s.out.byte = 0x00#8
  /-- a byte is shown only at the end of a token pair, without an error (R100, R113) -/
  byteDriven : s.out.byteValid = true → streamStart s ∧ hiNibble s.out.byte = s.hi
  /-- `out.end_ok` is shown only at the start of a new stream (R101, R103) -/
  endOk : s.out.endOk = true → streamStart s
  /-- the characters emitted so far are the encoding of some byte stream (R61, R97) -/
  charsOut : ∃ bs : List Byte, s.charsOut = encodeStream s.letters bs

end Sys2Proof.Machine
end

