-- ==== Sys2Proof/Certificates/Slice0/Obligations.lean ====
section
/-! DEFINITION. The statements for the provers. -/

open Sys2Proof Sys2Proof.Machine

/-! ## Encodings -/

/-- Decoding the input vector of an operation gives that operation, with every operand at every value (spec/30_encoding.md
sections 3 and 4). -/
def Obligations.EncodedOperationDecodesToItself : Prop :=
  ∀ i : Instr, decode (encode i) = .instr i

/-- An input vector that decodes to an operation is that operation's own encoding, so no bit of it is dropped and no
operation has two encodings (spec/30_encoding.md sections 3, 4 and 6). -/
def Obligations.DecodedInputIsTheEncoding : Prop :=
  ∀ (p : PortInput) (i : Instr), decode p = .instr i → encode i = p

/-- The command opcode map with the match and mask of the opcode table: each assigned OP gives its command with DATA as
the operand, and no other word gives a command (R63). -/
def Obligations.CommandOpcodeMap : Prop :=
  ∀ w : CommandWord,
    (w &&& 0xF00#12 = 0x100#12 → decode (.cmd w) = .instr (.encByte (w.extractLsb' 0 8))) ∧
    (w &&& 0xF00#12 = 0x200#12 → decode (.cmd w) = .instr (.decChar (w.extractLsb' 0 8))) ∧
    (w &&& 0xFFF#12 = 0x300#12 → decode (.cmd w) = .instr .decEnd) ∧
    (w &&& 0xFFF#12 = 0x400#12 → decode (.cmd w) = .instr .decClear) ∧
    (∀ i : Instr, decode (.cmd w) = .instr i →
      w &&& 0xF00#12 = 0x100#12 ∨ w &&& 0xF00#12 = 0x200#12 ∨ w &&& 0xFFF#12 = 0x300#12 ∨ w &&& 0xFFF#12 = 0x400#12)

/-- A step on a reserved command word is refused by name, whatever the state, and a step on any other command word is
not (R67, R68). -/
def Obligations.ReservedCommandsAreRefused : Prop :=
  ∀ (s : State) (w : CommandWord) (rest : List PortInput), s.input = .cmd w :: rest →
    let op := w.extractLsb' 8 4
    let data := w.extractLsb' 0 8
    ((op = 0#4 ∨ 5 ≤ op.toNat) → step s = .refused (.reservedCommand (.reservedOpcode op))) ∧
    ((op = 3#4 ∨ op = 4#4) → data ≠ 0#8 → step s = .refused (.reservedCommand (.reservedData op data))) ∧
    ((op = 1#4 ∨ op = 2#4) → ∃ t, step s = .next t) ∧
    ((op = 3#4 ∨ op = 4#4) → data = 0#8 → ∃ t, step s = .next t)

/-- The reserved words by number: 0x000 to 0x0FF, 0x301 to 0x3FF, 0x401 to 0x4FF, 0x500 to 0xFFF, and the check of
WellFormed.lean says the same (spec/95_test_vectors.md section 2.8). -/
def Obligations.ReservedWordRanges : Prop :=
  ∀ w : CommandWord,
    ((decode (.cmd w)).toOption = none ↔
      w.toNat ≤ 0x0FF ∨ (0x301 ≤ w.toNat ∧ w.toNat ≤ 0x3FF) ∨ (0x401 ≤ w.toNat ∧ w.toNat ≤ 0x4FF) ∨ 0x500 ≤ w.toNat) ∧
    ((decode (.cmd w)).toOption = none ↔ CommandWord.wf w = false)

/-- A few words and vectors written out from the spec's encodings decode to the operations they stand for
(spec/95_test_vectors.md sections 2 and 3). -/
def Obligations.WrittenWordsDecode : Prop :=
  decode (.cmd 0x148) = .instr (.encByte 0x48) ∧
  decode (.cmd 0x24D) = .instr (.decChar 0x4D) ∧
  decode (.cmd 0x300) = .instr .decEnd ∧
  decode (.cmd 0x400) = .instr .decClear ∧
  decode (.lut 0b0100) = .instr (.tokenOf 4) ∧
  decode (.cls 0x6D456F77) = .instr (.classify 0x6D456F77) ∧
  decode (.muxSplit 0xA5) = .instr (.split 0xA5) ∧
  decode (.muxJoin 0b01001000) = .instr (.join 4 8) ∧
  decode .rst = .instr .rst

/-- Reading what is written for an operation gives that operation. The exact blanks and digits are the model's choice
(log entry 10; spec/30_encoding.md section 7). -/
def Obligations.WrittenSyntaxReadsBack : Prop :=
  ∀ i : Instr, parseInstr (printInstr i) = some i

/-! ## Steps and runs -/

/-- When the next input the host has issued decodes to an operation, a step is that operation's meaning on the state
without that input (spec/00_scope.md sections 2 and 4). The list of pending inputs is the model's own field (log
entry 1). -/
def Obligations.StepRunsTheDecodedOperation : Prop :=
  ∀ (s : State) (p : PortInput) (rest : List PortInput) (i : Instr),
    s.input = p :: rest → decode p = .instr i → step s = exec i { s with input := rest }

/-- With no operation pending, a step changes nothing (the model's reading of spec/00_scope.md section 6, log entry
2). -/
def Obligations.StepWithoutInputChangesNothing : Prop :=
  ∀ s : State, s.input = [] → step s = .next s

/-- Pending operations take effect one at a time, in the order the host issued them (spec/20_memory.md section 6). The
list of pending inputs is the model's own field (log entry 1). -/
def Obligations.PendingOperationsRunInOrder : Prop :=
  ∀ (is : List Instr) (s : State), s.input = [] →
    core.run is.length { s with input := is.map encode } = runOps is s

/-- A run over inputs none of which is a reserved command word is never refused (spec/70_reset_and_hazards.md
section 3). The list of pending inputs is the model's own field (log entry 1), and that the steps after the last of them
answer next is the model's reading (log entry 2). -/
def Obligations.LegalInputIsNeverRefused : Prop :=
  ∀ (k : Nat) (s : State), (∀ p ∈ s.input, legalInput p = true) → ∃ t, core.run k s = .next t

/-- Every operation completes in its own step, in every state (spec/70_reset_and_hazards.md section 3: the block never
waits). -/
def Obligations.EveryOperationCompletes : Prop :=
  ∀ (i : Instr) (s : State), ∃ t, exec i s = .next t

/-! ## U_MUX -/

/-- SPLIT gives `byte_i[7:4]` and `byte_i[3:0]` and reads and writes no state (R79). What the response fields of the
commands show is left open here. -/
def Obligations.SplitResult : Prop :=
  ∀ (b : Byte) (s : State),
    decode (.muxSplit b) = .instr (.split b) ∧
    ∃ t, exec (.split b) s = .next t ∧
      t = { s with out := t.out, unitOut := .nibbles (b.extractLsb' 4 4) (b.extractLsb' 0 4) }

/-- JOIN gives the shifted high nibble or-ed with the low nibble and reads and writes no state (R80). What the response
fields of the commands show is left open here. -/
def Obligations.JoinResult : Prop :=
  ∀ (hi lo : Nibble) (s : State),
    decode (.muxJoin (hi ++ lo)) = .instr (.join hi lo) ∧
    ∃ t, exec (.join hi lo) s = .next t ∧
      t = { s with out := t.out, unitOut := .byte ((hi.setWidth 8 <<< 4) ||| lo.setWidth 8) }

/-- JOIN after SPLIT gives back the byte, and SPLIT after JOIN gives back the two nibbles. The spec marks this as
derived (spec/40_byte_mux.md: "SPLIT and JOIN are inverse bijections"). -/
def Obligations.SplitAndJoinAreInverse : Prop :=
  (∀ (b : Byte) (s : State), ∃ h l t u, exec (.split b) s = .next t ∧ t.unitOut = .nibbles h l ∧
    exec (.join h l) t = .next u ∧ u.unitOut = .byte b) ∧
  (∀ (h l : Nibble) (s : State), ∃ b t u, exec (.join h l) s = .next t ∧ t.unitOut = .byte b ∧
    exec (.split b) t = .next u ∧ u.unitOut = .nibbles h l)

/-! ## U_LUT and U_CLS -/

/-- TOKEN_OF gives `LUT[nib_i]` and writes no state (R85). What the response fields of the commands show is left open
here. -/
def Obligations.TokenOfResult : Prop :=
  ∀ (n : Nibble) (s : State),
    decode (.lut n) = .instr (.tokenOf n) ∧
    ∃ t, exec (.tokenOf n) s = .next t ∧ t = { s with out := t.out, unitOut := .token (lutRead s n) }

/-- The sixteen entries of the LUT are the tokens of the nibbles, and for LETTERS = meow those the table of
spec/41_lut_classifier.md section 1 lists; the spec marks the table as derived. -/
def Obligations.LutContents : Prop :=
  ∀ s : State, Memory.wf s.letters s.lut = true →
    (∀ n : Nibble, lutRead s n = caseEncode s.letters n) ∧
    (s.letters = Config.letters →
    [lutRead s 0x0, lutRead s 0x1, lutRead s 0x2, lutRead s 0x3, lutRead s 0x4, lutRead s 0x5, lutRead s 0x6,
     lutRead s 0x7, lutRead s 0x8, lutRead s 0x9, lutRead s 0xA, lutRead s 0xB, lutRead s 0xC, lutRead s 0xD,
     lutRead s 0xE, lutRead s 0xF] =
    [0x6D656F77, 0x6D656F57, 0x6D654F77, 0x6D654F57, 0x6D456F77, 0x6D456F57, 0x6D454F77, 0x6D454F57,
     0x4D656F77, 0x4D656F57, 0x4D654F77, 0x4D654F57, 0x4D456F77, 0x4D456F57, 0x4D454F77, 0x4D454F57])

/-- Position p of the token of nibble n, in bits `[31-8p : 24-8p]`, is the letter of that position, in upper case when
bit `3 - p` of n is 1 and in lower case otherwise; for every LETTERS (R83). -/
def Obligations.CaseEncoderSpellsTheNibble : Prop :=
  ∀ (L : Letters) (n : Nibble) (p : Pos),
    (caseEncode L n).extractLsb' (24 - 8 * p.val) 8 =
      if n.getLsbD (3 - p.val) = true then letterAt L p - 0x20#8 else letterAt L p

/-- Different nibbles have different tokens, and the tokens of the nibbles are exactly the token words whose every
position holds its letter in one of its two cases; for every LETTERS. The spec marks this as derived
(spec/41_lut_classifier.md section 1). -/
def Obligations.TokensAreDistinctAndExhaustive : Prop :=
  ∀ L : Letters,
    (∀ n m : Nibble, caseEncode L n = caseEncode L m → n = m) ∧
    (∀ t : TokenWord,
      (∀ p : Pos, t.extractLsb' (24 - 8 * p.val) 8 = letterAt L p ∨
        t.extractLsb' (24 - 8 * p.val) 8 = letterAt L p - 0x20#8) ↔ ∃ n : Nibble, caseEncode L n = t)

/-- The classifier inverts the case encoder on the valid tokens, and answers valid on no other word; for every LETTERS.
The spec marks this as derived (spec/41_lut_classifier.md section 2). -/
def Obligations.ClassifierInvertsCaseEncoder : Prop :=
  ∀ L : Letters,
    (∀ n : Nibble, classify L (caseEncode L n) = ⟨true, n⟩) ∧
    (∀ (t : TokenWord) (n : Nibble), classify L t = ⟨true, n⟩ → caseEncode L n = t) ∧
    (∀ t : TokenWord, (∀ n : Nibble, caseEncode L n ≠ t) → classify L t = ⟨false, 0x0#4⟩)

/-- CLASSIFY compares all 8 bits of each character with its position's letter in both cases; on a valid token it gives
the four case bits, position 0 first, and on any other `valid_o = 0` and `nib_o = 0x0`. It reads and writes no state;
the letters are those the block is built with (R89). What the response fields of the commands show is left open here. -/
def Obligations.ClassifyResult : Prop :=
  ∀ (w : TokenWord) (s : State),
    let L := s.letters
    let c0 := w.extractLsb' 24 8
    let c1 := w.extractLsb' 16 8
    let c2 := w.extractLsb' 8 8
    let c3 := w.extractLsb' 0 8
    decode (.cls w) = .instr (.classify w) ∧
    ∃ t, exec (.classify w) s = .next t ∧
      t = { s with
        out := t.out
        unitOut :=
          if (c0 = L.l0 ∨ c0 = L.l0 - 0x20#8) ∧ (c1 = L.l1 ∨ c1 = L.l1 - 0x20#8) ∧
              (c2 = L.l2 ∨ c2 = L.l2 - 0x20#8) ∧ (c3 = L.l3 ∨ c3 = L.l3 - 0x20#8) then
            .classified true
              ((if c0 = L.l0 - 0x20#8 then 1#1 else 0#1) ++ (if c1 = L.l1 - 0x20#8 then 1#1 else 0#1)
                ++ (if c2 = L.l2 - 0x20#8 then 1#1 else 0#1) ++ (if c3 = L.l3 - 0x20#8 then 1#1 else 0#1))
          else .classified false 0x0#4 }

/-- The letter-identity check of a position accepts exactly its letter in either case; it rejects a letter of another
position and every code that is no ASCII letter; for every LETTERS that R9 allows (R87). -/
def Obligations.LetterIdentityCheck : Prop :=
  ∀ L : Letters, L.wf = true →
    (∀ (p : Pos) (c : Byte), matchLetter L p c = true ↔ c = letterAt L p ∨ c = letterAt L p - 0x20#8) ∧
    (∀ (p q : Pos) (c : Byte), p ≠ q → matchLetter L p c = true → matchLetter L q c = false) ∧
    (∀ (p : Pos) (c : Byte), ¬ (0x41 ≤ c.toNat ∧ c.toNat ≤ 0x5A) → ¬ (0x61 ≤ c.toNat ∧ c.toNat ≤ 0x7A) →
      matchLetter L p c = false)

/-- On a valid token the nibble is bit 5 of each character, inverted; for every LETTERS that R9 allows. The spec marks
this as derived, a check only (spec/30_encoding.md section 1). -/
def Obligations.CasePatternIsBitFiveInverted : Prop :=
  ∀ L : Letters, L.wf = true → ∀ (t : TokenWord) (n : Nibble), classify L t = ⟨true, n⟩ →
    n = ~~~(t.extractLsb' 29 1) ++ ~~~(t.extractLsb' 21 1) ++ ~~~(t.extractLsb' 13 1) ++ ~~~(t.extractLsb' 5 1)

/-- Evaluating a unit port twice gives the same outputs and changes nothing more; it changes no register, no LUT entry
and no output stream, and its outputs do not depend on the registers, in blocks built alike (R48). -/
def Obligations.UnitEvaluationsArePure : Prop :=
  ∀ (i : Instr) (s s' : State), isUnitOp i = true → s'.letters = s.letters → s'.lut = s.lut →
    ∃ t t', exec i s = .next t ∧ exec i t = .next t ∧ exec i s' = .next t' ∧ t'.unitOut = t.unitOut ∧
      sameDecoder s t ∧ (∀ n : Nibble, lutRead t n = lutRead s n) ∧ t.charsOut = s.charsOut ∧ t.bytesOut = s.bytesOut

/-! ## U_ENC -/

/-- ENC_BYTE puts the token of the high nibble before that of the low nibble on the response, emits those 8 characters,
and neither reads nor writes a decoder register (R92). What the unit ports show is left open here. -/
def Obligations.EncByteResult : Prop :=
  ∀ (b : Byte) (s : State),
    let w := lutRead s (b.extractLsb' 4 4) ++ lutRead s (b.extractLsb' 0 4)
    decode (.cmd (0x1#4 ++ b)) = .instr (.encByte b) ∧
    ∃ t, exec (.encByte b) s = .next t ∧
      t = { s with
        out := { chars := w, charsValid := true, byteValid := false, byte := 0x00#8, endOk := false }
        unitOut := t.unitOut
        charsOut := s.charsOut ++ [w.extractLsb' 56 8, w.extractLsb' 48 8, w.extractLsb' 40 8, w.extractLsb' 32 8,
          w.extractLsb' 24 8, w.extractLsb' 16 8, w.extractLsb' 8 8, w.extractLsb' 0 8] }

/-- With the LUT's contents in place, stream character i of an encoded byte is the letter of position i mod 4, in upper
case when bit `7 - i` of the byte is 1 (spec/20_memory.md section 2: high nibble first, most significant bit first). -/
def Obligations.EncodedCharactersSpellTheByte : Prop :=
  ∀ (b : Byte) (s : State), Memory.wf s.letters s.lut = true →
    ∃ t, exec (.encByte b) s = .next t ∧
      ∀ i : Fin 8, t.out.chars.extractLsb' (56 - 8 * i.val) 8 =
        if b.getLsbD (7 - i.val) = true then letterAt s.letters (Fin.ofNat 4 i.val) - 0x20#8
        else letterAt s.letters (Fin.ofNat 4 i.val)

/-- The response of an ENC_BYTE and the characters it emits depend on its DATA and the LUT only (R93). -/
def Obligations.EncByteDependsOnDataAndLutOnly : Prop :=
  ∀ (b : Byte) (s s' : State), s'.lut = s.lut →
    ∃ t t' cs, exec (.encByte b) s = .next t ∧ exec (.encByte b) s' = .next t' ∧ t'.out = t.out ∧
      t.charsOut = s.charsOut ++ cs ∧ t'.charsOut = s'.charsOut ++ cs

/-- An ENC_BYTE before or after a decoder operation leaves the same registers and the same output streams, and the
decoder operation gives the response it gives alone (spec/70_reset_and_hazards.md section 4, of commands). The decoder
operations here include RST, which is no command; that RST leaves the response fields 0 whatever came before is the
model's reading (log entry 4). -/
def Obligations.EncodingInterleavesWithDecoding : Prop :=
  ∀ (b : Byte) (d : Instr) (s : State), isDecoderOp d = true →
    ∃ t u v e, runOps [.encByte b, d] s = .next t ∧ runOps [d, .encByte b] s = .next u ∧ exec d s = .next v ∧
      exec (.encByte b) s = .next e ∧ sameDecoder s e ∧ sameDecoder v t ∧ sameDecoder v u ∧ t.out = v.out ∧
      u.out = e.out ∧ t.charsOut = e.charsOut ∧ u.charsOut = e.charsOut ∧ t.bytesOut = v.bytesOut ∧
      u.bytesOut = v.bytesOut ∧ t.lut = s.lut ∧ u.lut = s.lut

/-- An encode call emits the encoded stream of its bytes, 8 characters for each, and touches nothing of the decoder. The
empty call emits nothing. The spec marks this as derived (spec/42_encoder.md). -/
def Obligations.EncodeCallEmitsTheEncodedStream : Prop :=
  ∀ (bs : List Byte) (s : State), Memory.wf s.letters s.lut = true →
    ∃ t, runOps (encodeCall bs) s = .next t ∧ t.charsOut = s.charsOut ++ encodeStream s.letters bs ∧
      t.charsOut.length = s.charsOut.length + 8 * bs.length ∧ sameDecoder s t ∧ t.bytesOut = s.bytesOut

/-! ## U_DEC -/

/-- DEC_CHAR and the TokenStep it takes on the fourth character of a token. In the Error state nothing changes. Else the
character goes into slot CNT of TBUF and into no other, and CNT counts up; with the fourth character CNT goes to 0, an
invalid token sets ERR to 1, a valid high token writes HI and PHASE, and a valid low token emits the joined byte and
writes PHASE (R99, R100). What the unit ports show is left open here. -/
def Obligations.DecCharResult : Prop :=
  ∀ (c : Byte) (s : State),
    decode (.cmd (0x2#4 ++ c)) = .instr (.decChar c) ∧
    ∃ t, exec (.decChar c) s = .next t ∧
      (s.err ≠ 0#2 → t = { s with out := Response.zero, unitOut := t.unitOut }) ∧
      (s.err = 0#2 → s.cnt ≠ 3#2 →
        tbufRead t.tbuf s.cnt.toFin = c ∧ (∀ p : Pos, p ≠ s.cnt.toFin → tbufRead t.tbuf p = tbufRead s.tbuf p) ∧
        t = { s with out := Response.zero, unitOut := t.unitOut, tbuf := t.tbuf, cnt := s.cnt + 1#2 }) ∧
      (s.err = 0#2 → s.cnt = 3#2 →
        let r := classify s.letters (s.tbuf.c0 ++ s.tbuf.c1 ++ s.tbuf.c2 ++ c)
        (r.valid = false → t =
          { s with out := Response.zero, unitOut := t.unitOut, tbuf := { s.tbuf with c3 := c }, cnt := 0#2, err := 1#2 }) ∧
        (r.valid = true → s.phase = 0#1 → t =
          { s with
            out := Response.zero, unitOut := t.unitOut, tbuf := { s.tbuf with c3 := c }, cnt := 0#2, hi := r.nib
            phase := 1#1 }) ∧
        (r.valid = true → s.phase = 1#1 → t =
          { s with
            out := { chars := 0#64, charsValid := false, byteValid := true, byte := s.hi ++ r.nib, endOk := false }
            unitOut := t.unitOut
            tbuf := { s.tbuf with c3 := c }
            cnt := 0#2
            phase := 0#1
            bytesOut := s.bytesOut ++ [s.hi ++ r.nib] }))

/-- DEC_END raises PARTIAL_TOKEN mid-token, else ODD_TOKEN after a lone high token, changes nothing in the Error state
and no register on success, and `out.end_ok` says whether ERR is 0 afterwards (R101). What the unit ports show is left
open here. -/
def Obligations.DecEndResult : Prop :=
  ∀ s : State,
    let fail : Response := { chars := 0#64, charsValid := false, byteValid := false, byte := 0x00#8, endOk := false }
    decode (.cmd 0x300#12) = .instr .decEnd ∧
    ∃ t, exec .decEnd s = .next t ∧
      (s.err ≠ 0#2 → t = { s with out := fail, unitOut := t.unitOut }) ∧
      (s.err = 0#2 → s.cnt ≠ 0#2 → t = { s with out := fail, unitOut := t.unitOut, err := 2#2 }) ∧
      (s.err = 0#2 → s.cnt = 0#2 → s.phase = 1#1 → t = { s with out := fail, unitOut := t.unitOut, err := 3#2 }) ∧
      (s.err = 0#2 → s.cnt = 0#2 → s.phase = 0#1 → t =
        { s with out := { fail with endOk := true }, unitOut := t.unitOut })

/-- DEC_CLEAR gives every decoder register its reset value, in every state, drives no response and emits nothing
(R102). What the unit ports show is left open here. -/
def Obligations.DecClearResult : Prop :=
  ∀ s : State,
    decode (.cmd 0x400#12) = .instr .decClear ∧
    ∃ t, exec .decClear s = .next t ∧
      t = { s with
        out := Response.zero, unitOut := t.unitOut, phase := 0#1, cnt := 0#2
        tbuf := ⟨0x00#8, 0x00#8, 0x00#8, 0x00#8⟩, hi := 0x0#4, err := 0#2 }

/-- A DEC_END that answers `out.end_ok = 1` was at the start of a stream and leaves
every register as it was, so the next DEC_CHAR starts an aligned stream (R103). -/
def Obligations.SuccessfulEndLeavesEveryRegister : Prop :=
  ∀ s t : State, exec .decEnd s = .next t → t.out.endOk = true →
    sameDecoder s t ∧ streamStart t ∧ (∀ n : Nibble, lutRead t n = lutRead s n) ∧
      ∀ c : Byte, ∃ u, exec (.decChar c) t = .next u ∧ u.cnt = 1#2 ∧ u.phase = 0#1 ∧ u.err = 0#2 ∧ tbufRead u.tbuf 0 = c

/-- On the fourth character of a token the decoder goes from ExpectHighToken to ExpectLowToken or back when the token is
valid, and into Error when it is not (spec/10_state.md section 2, the three decoder states). -/
def Obligations.CompletedTokenMovesTheDecoderState : Prop :=
  ∀ (c : Byte) (s : State), s.err = 0#2 → s.cnt = 3#2 →
    ∃ t, exec (.decChar c) s = .next t ∧
      (tokenValid s.letters (s.tbuf.c0 ++ s.tbuf.c1 ++ s.tbuf.c2 ++ c) = false → decoderState t = .error) ∧
      (tokenValid s.letters (s.tbuf.c0 ++ s.tbuf.c1 ++ s.tbuf.c2 ++ c) = true →
        (decoderState s = .expectHighToken → decoderState t = .expectLowToken) ∧
        (decoderState s = .expectLowToken → decoderState t = .expectHighToken))

/-- Only DEC_CHAR, DEC_CLEAR and RST move the stream position; a DEC_CHAR that leaves ERR at 0 moves it on by one
character, from the last of a token pair back to the first. The spec's words leave BAD_LETTER open (log entry 11;
spec/10_state.md section 1). -/
def Obligations.StreamPositionAdvancesByOne : Prop :=
  (∀ (c : Byte) (s t : State), s.err = 0#2 → exec (.decChar c) s = .next t → t.err = 0#2 →
    streamPosition t = (streamPosition s + 1) % 8) ∧
  (∀ (i : Instr) (s t : State), (∀ c : Byte, i ≠ .decChar c) → i ≠ .decClear → i ≠ .rst → exec i s = .next t →
    streamPosition t = streamPosition s)

/-- After k characters from the start of a stream with ERR still 0, CNT and PHASE count characters and tokens, k div 8
bytes have been emitted, and a pending HI is the nibble of the last whole token. The spec marks this as derived
(spec/43_decoder.md section 2). -/
def Obligations.RegistersCountTheStream : Prop :=
  ∀ (cs : List Byte) (s : State), streamStart s →
    ∃ t, runOps (decStr cs) s = .next t ∧
      (t.err = 0#2 →
        t.cnt.toNat = cs.length % 4 ∧ t.phase.toNat = cs.length / 4 % 2 ∧
        t.bytesOut.length = s.bytesOut.length + cs.length / 8 ∧
        (t.phase = 1#1 → ∃ before c0 c1 c2 c3 after, cs = before ++ [c0, c1, c2, c3] ++ after ∧
          before.length = 4 * (cs.length / 4 - 1) ∧
          classify s.letters (c0 ++ c1 ++ c2 ++ c3) = ⟨true, t.hi⟩))

/-- The outcome of a decode call: the bytes of the token pairs before the first error or the end, and `out.end_ok`
exactly when the length is a multiple of 8 and every 4-character group is a valid token; ERR holds the first error. The
spec marks this as derived (spec/43_decoder.md section 2). That the record of the streams goes on past DEC_CLEAR is log
entry 7. -/
def Obligations.DecodeCallOutcome : Prop :=
  ∀ (cs : List Byte) (s : State),
    ∃ t, runOps (decodeCall cs) s = .next t ∧
      decodeCallOutcome s t =
        (streamBytes s.letters cs, decide (cs.length % 8 = 0) && allTokensValid s.letters cs) ∧
      t.bytesOut = s.bytesOut ++ streamBytes s.letters cs ∧ t.charsOut = s.charsOut ∧
      t.err = streamError s.letters false cs

/-- A stream without an invalid token ends with ERR by its length alone: 0 for a multiple of 8, 2 when it is no multiple
of 4, 3 for 4 more than a multiple of 8 (spec/95_test_vectors.md section 4). -/
def Obligations.StreamLengthDecidesTheError : Prop :=
  ∀ (cs : List Byte) (s : State), allTokensValid s.letters cs = true →
    ∃ t, runOps (decodeCall cs) s = .next t ∧ (t.err = 0#2 ↔ cs.length % 8 = 0) ∧ (t.err = 2#2 ↔ cs.length % 4 ≠ 0) ∧
      (t.err = 3#2 ↔ cs.length % 8 = 4) ∧ (t.out.endOk = true ↔ cs.length % 8 = 0)

/-- Decoding the characters an encode call has emitted emits the bytes of that call and ends with `out.end_ok = 1`, for
every byte stream, the empty one among them. The spec marks this as derived (spec/43_decoder.md section 2). That the
record of the streams goes on past DEC_CLEAR is log entry 7. -/
def Obligations.DecodingUndoesEncoding : Prop :=
  ∀ (bs : List Byte) (s : State), Memory.wf s.letters s.lut = true →
    ∃ u t, runOps (encodeCall bs) s = .next u ∧
      runOps (decodeCall (u.charsOut.drop s.charsOut.length)) u = .next t ∧ decodeCallOutcome u t = (bs, true)

/-- From the start of a stream, as RST, DEC_CLEAR and a successful DEC_END leave it, a decode call gives the same
outcome with or without its DEC_CLEAR (spec/70_reset_and_hazards.md section 2). That the record of the streams goes on
past DEC_CLEAR is log entry 7. -/
def Obligations.FreshStreamNeedsNoClear : Prop :=
  ∀ (cs : List Byte) (s : State), streamStart s →
    ∃ t u, runOps (decStr cs ++ [.decEnd]) s = .next t ∧ runOps (decodeCall cs) s = .next u ∧
      decodeCallOutcome s t = decodeCallOutcome s u ∧ statusO t = statusO u

/-- Two states that differ only in slots of TBUF and in an HI that the current stream has not written show the same on
every port after a step, and differ again only so. The spec marks this as derived (spec/43_decoder.md section 2,
spec/10_state.md section 5). -/
def Obligations.HiddenRegistersAreNotObserved : Prop :=
  ∀ s t s' : State, AgreeOutside s t → step s = .next s' → ∃ t', step t = .next t' ∧ AgreeOutside s' t'

/-- Output already emitted stays, and in the Error state no byte is added until DEC_CLEAR or RST
(spec/43_decoder.md section 2, spec/60_exceptions.md section 2). That it stays past DEC_CLEAR and RST is log entry 7. -/
def Obligations.EmittedOutputStays : Prop :=
  (∀ (is : List Instr) (s t : State), runOps is s = .next t →
    s.bytesOut <+: t.bytesOut ∧ s.charsOut <+: t.charsOut) ∧
  (∀ (is : List Instr) (s t : State), s.err ≠ 0#2 → (∀ i ∈ is, isClearing i = false) → runOps is s = .next t →
    t.bytesOut = s.bytesOut ∧ sameDecoder s t)

/-! ## Errors -/

/-- While ERR is not 0, DEC_CHAR changes no register and emits nothing, DEC_END changes no register and answers 0, and
ENC_BYTE works as normal (R116). -/
def Obligations.ErrorStateIgnoresTheStream : Prop :=
  ∀ s : State, s.err ≠ 0#2 →
    (∀ c : Byte, ∃ t, exec (.decChar c) s = .next t ∧ sameDecoder s t ∧ t.out = Response.zero ∧
      t.bytesOut = s.bytesOut ∧ t.charsOut = s.charsOut) ∧
    (∃ t, exec .decEnd s = .next t ∧ sameDecoder s t ∧ t.out.endOk = false ∧ t.bytesOut = s.bytesOut ∧
      t.charsOut = s.charsOut) ∧
    (∀ b : Byte, ∃ t u, exec (.encByte b) s = .next t ∧ exec (.encByte b) { s with err := 0#2 } = .next u ∧
      t.out = u.out ∧ t.charsOut = u.charsOut ∧ t.out.charsValid = true ∧ sameDecoder s t)

/-- Only DEC_CLEAR and RST leave the Error state or change its code, and both give every decoder register its reset
value (R117). -/
def Obligations.OnlyClearAndResetLeaveTheErrorState : Prop :=
  (∀ (i : Instr) (s t : State), s.err ≠ 0#2 → exec i s = .next t → isClearing i = false → t.err = s.err) ∧
  (∀ (i : Instr) (s : State), isClearing i = true →
    ∃ t, exec i s = .next t ∧ t.phase = 0#1 ∧ t.cnt = 0#2 ∧ t.tbuf = ⟨0x00#8, 0x00#8, 0x00#8, 0x00#8⟩ ∧ t.hi = 0x0#4 ∧ t.err = 0#2)

/-- When a step raises a FormatError, ERR takes the code and PHASE, HI and the LUT keep their values; CNT is 0 after
BAD_LETTER and unchanged after an error of DEC_END; nothing is emitted (R114). -/
def Obligations.RaisingAnErrorWritesErrOnly : Prop :=
  ∀ (i : Instr) (s t : State), s.err = 0#2 → exec i s = .next t → t.err ≠ 0#2 →
    t.phase = s.phase ∧ t.hi = s.hi ∧ t.lut = s.lut ∧ t.bytesOut = s.bytesOut ∧ t.charsOut = s.charsOut ∧
    t.out = Response.zero ∧
    ((∃ c, i = .decChar c ∧ t.err = 1#2 ∧ t.cnt = 0#2 ∧ t.tbuf = { s.tbuf with c3 := c }) ∨
     (i = .decEnd ∧ (t.err = 2#2 ∨ t.err = 3#2) ∧ t.cnt = s.cnt ∧ t.tbuf = s.tbuf))

/-! ## Responses, status and reset -/

/-- Each command drives its own response fields and no other is non-zero; with a command the output streams grow by
exactly what its response shows, the characters of a response in the order of its bytes, and with nothing else; after a
command `status_o` and `err_o` show the new state (R64). -/
def Obligations.ResponsesAndOutputStreams : Prop :=
  (∀ (b : Byte) (s : State), ∃ t, exec (.encByte b) s = .next t ∧ t.out.charsValid = true ∧
    t.out = { Response.zero with chars := t.out.chars, charsValid := true }) ∧
  (∀ (c : Byte) (s : State), ∃ t, exec (.decChar c) s = .next t ∧ (t.out.byteValid = false → t.out.byte = 0x00#8) ∧
    t.out = { Response.zero with byte := t.out.byte, byteValid := t.out.byteValid }) ∧
  (∀ s : State, ∃ t, exec .decEnd s = .next t ∧ (t.out.endOk = true ↔ t.err = 0#2) ∧
    t.out = { Response.zero with endOk := t.out.endOk }) ∧
  (∀ s : State, ∃ t, exec .decClear s = .next t ∧ t.out = Response.zero) ∧
  (∀ (i : Instr) (s : State), isUnitOp i = true ∨ i = .rst →
    ∃ t, exec i s = .next t ∧ t.bytesOut = s.bytesOut ∧ t.charsOut = s.charsOut) ∧
  (∀ (i : Instr) (s : State), isUnitOp i = false → i ≠ .rst →
    ∃ t, exec i s = .next t ∧
      t.bytesOut = s.bytesOut ++ (if t.out.byteValid = true then [t.out.byte] else []) ∧
      t.charsOut = s.charsOut ++ (if t.out.charsValid = true then
        [t.out.chars.extractLsb' 56 8, t.out.chars.extractLsb' 48 8, t.out.chars.extractLsb' 40 8,
         t.out.chars.extractLsb' 32 8, t.out.chars.extractLsb' 24 8, t.out.chars.extractLsb' 16 8,
         t.out.chars.extractLsb' 8 8, t.out.chars.extractLsb' 0 8] else []) ∧
      (statusO t).extractLsb' 3 2 = t.err ∧ (statusO t).extractLsb' 2 1 = t.phase ∧ (statusO t).extractLsb' 0 2 = t.cnt ∧
      errO t = t.err)

/-- After a unit evaluation or RST no response field of a command stands, and after a command or RST no unit port shows
a value. Both are the model's choice (log entries 4 and 5; spec/00_scope.md section 4). -/
def Obligations.UndrivenOutputsAreCleared : Prop :=
  ∀ (i : Instr) (s : State), ∃ t, exec i s = .next t ∧
    (isUnitOp i = true ∨ i = .rst → t.out = Response.zero) ∧ (isUnitOp i = false → t.unitOut = .none)

/-- The LUT is immutable: no operation and no run of steps changes an entry (R31). -/
def Obligations.LutIsNeverWritten : Prop :=
  (∀ (i : Instr) (s : State), ∃ t, exec i s = .next t ∧ ∀ n : Nibble, lutRead t n = lutRead s n) ∧
  (∀ (k : Nat) (s t : State), core.run k s = .next t → ∀ n : Nibble, lutRead t n = lutRead s n)

/-- `status_o` is ERR, PHASE and CNT from the most significant bit down, `err_o` is ERR, and neither depends on HI or
TBUF (R28). -/
def Obligations.StatusOutputs : Prop :=
  ∀ (s : State) (h : Nibble) (tb : TokenBuf),
    (statusO s).extractLsb' 3 2 = s.err ∧ (statusO s).extractLsb' 2 1 = s.phase ∧ (statusO s).extractLsb' 0 2 = s.cnt ∧
    errO s = s.err ∧ statusO { s with hi := h, tbuf := tb } = statusO s ∧ errO { s with hi := h, tbuf := tb } = errO s

/-- RST gives every decoder register its reset value in every state, leaves the LUT, emits nothing, and `status_o` reads
0b00000 afterwards (R129). What the response fields and the unit ports show is left open here. -/
def Obligations.RstResult : Prop :=
  ∀ s : State,
    decode .rst = .instr .rst ∧
    ∃ t, exec .rst s = .next t ∧ statusO t = 0b00000#5 ∧
      t = { s with
        out := t.out, unitOut := t.unitOut, phase := 0#1, cnt := 0#2
        tbuf := ⟨0x00#8, 0x00#8, 0x00#8, 0x00#8⟩, hi := 0x0#4, err := 0#2 }

/-- The values after RST, after DEC_CLEAR and in the reset state of a block built with any LETTERS that R9 allows: PHASE,
CNT, TBUF, HI and ERR are 0, and the LUT keeps its contents (R33). -/
def Obligations.ResetValues : Prop :=
  (∀ (i : Instr) (s : State), i = .rst ∨ i = .decClear →
    ∃ t, exec i s = .next t ∧ sameDecoder State.reset t ∧ ∀ n : Nibble, lutRead t n = lutRead s n) ∧
  ∀ (L : Letters) (h : L.wf = true),
    let r := State.resetWith L h
    r.phase = 0#1 ∧ r.cnt = 0#2 ∧ r.tbuf = ⟨0x00#8, 0x00#8, 0x00#8, 0x00#8⟩ ∧ r.hi = 0x0#4 ∧ r.err = 0#2 ∧
      ∀ n : Nibble, lutRead r n = caseEncode L n

/-! ## The invariant -/

/-- The reset state of a block built with any LETTERS that R9 allows meets the invariant, that of this hardware among
them. Its empty streams and responses are the model's choice (log entry 8; spec/10_state.md section 5). -/
def Obligations.ResetMeetsTheInvariant : Prop :=
  (∀ (L : Letters) (h : L.wf = true), Inv (coreWith L h).reset) ∧ Inv State.reset

/-- Every step from a state that meets the invariant gives a state that meets it (spec/10_state.md, spec/43_decoder.md
and spec/60_exceptions.md, gathered in `Inv`). Its clauses on response fields rest on log entry 4 where the step is a
unit evaluation or RST, that on the emitted characters on log entry 7. -/
def Obligations.StepKeepsTheInvariant : Prop :=
  ∀ s s' : State, Inv s → step s = .next s' → Inv s'

/-! ## LETTERS -/

/-- LETTERS is fixed when the block is built: no operation and no run of steps changes it, a change of it changes the LUT,
and this hardware is built with `meow` (spec/10_state.md section 6, spec/00_scope.md section 3). That State carries the
parameter is the model's choice (log entry 13). -/
def Obligations.LettersAreFixed : Prop :=
  (∀ (i : Instr) (s : State), ∃ t, exec i s = .next t ∧ t.letters = s.letters) ∧
  (∀ (k : Nat) (s t : State), core.run k s = .next t → t.letters = s.letters) ∧
  (∀ L L' : Letters, romContents L = romContents L' → L = L') ∧
  (∀ (L : Letters) (h : L.wf = true), (State.resetWith L h).letters = L) ∧
  State.reset.letters = ⟨0x6D#8, 0x65#8, 0x6F#8, 0x77#8⟩
end

