-- ==== Sys2Proof/Laws/Decode.lean ====
section
/-! SUPPORT. The fields of a command word and the word they make (spec/30_encoding.md R62). -/

namespace Sys2Proof

@[simp] theorem opField_append (op : BitVec 4) (data : Byte) : opField (op ++ data) = op := by
  apply BitVec.eq_of_getLsbD_eq
  intro i hi
  rw [opField, BitVec.getLsbD_extractLsb', show (op ++ data : BitVec 12).getLsbD (8 + i) = _ from BitVec.getLsbD_append]
  simp [hi]

@[simp] theorem dataField_append (op : BitVec 4) (data : Byte) : dataField (op ++ data) = data := by
  apply BitVec.eq_of_getLsbD_eq
  intro i hi
  rw [dataField, BitVec.getLsbD_extractLsb',
    show (op ++ data : BitVec 12).getLsbD (0 + i) = _ from BitVec.getLsbD_append]
  simp [hi]

theorem opField_append_dataField (w : CommandWord) : opField w ++ dataField w = w := by
  apply BitVec.eq_of_getLsbD_eq
  intro i hi
  rw [show (opField w ++ dataField w : BitVec 12).getLsbD i = _ from BitVec.getLsbD_append]
  simp only [opField, dataField, BitVec.getLsbD_extractLsb']
  by_cases h : i < 8
  · simp [h]
  · have e : 8 + (i - 8) = i := by omega
    simp [h, e]
    omega

end Sys2Proof
end

