-- ==== Sys2Proof/Laws/State.lean ====
section
/-! SUPPORT. One lemma per field per update of the state and per field of the reset state, each true by unfolding. -/

namespace Sys2Proof.Machine

section
variable (s : State)

@[simp] theorem beginStep_letters : (beginStep s).letters = s.letters := rfl
@[simp] theorem beginStep_lut : (beginStep s).lut = s.lut := rfl
@[simp] theorem beginStep_phase : (beginStep s).phase = s.phase := rfl
@[simp] theorem beginStep_cnt : (beginStep s).cnt = s.cnt := rfl
@[simp] theorem beginStep_tbuf : (beginStep s).tbuf = s.tbuf := rfl
@[simp] theorem beginStep_hi : (beginStep s).hi = s.hi := rfl
@[simp] theorem beginStep_err : (beginStep s).err = s.err := rfl
@[simp] theorem beginStep_out : (beginStep s).out = Response.zero := rfl
@[simp] theorem beginStep_unitOut : (beginStep s).unitOut = .none := rfl
@[simp] theorem beginStep_charsOut : (beginStep s).charsOut = s.charsOut := rfl
@[simp] theorem beginStep_bytesOut : (beginStep s).bytesOut = s.bytesOut := rfl
@[simp] theorem beginStep_input : (beginStep s).input = s.input := rfl

end

section
variable (p : PortInput) (s : State)

@[simp] theorem present_letters : (present p s).letters = s.letters := rfl
@[simp] theorem present_lut : (present p s).lut = s.lut := rfl
@[simp] theorem present_phase : (present p s).phase = s.phase := rfl
@[simp] theorem present_cnt : (present p s).cnt = s.cnt := rfl
@[simp] theorem present_tbuf : (present p s).tbuf = s.tbuf := rfl
@[simp] theorem present_hi : (present p s).hi = s.hi := rfl
@[simp] theorem present_err : (present p s).err = s.err := rfl
@[simp] theorem present_out : (present p s).out = s.out := rfl
@[simp] theorem present_unitOut : (present p s).unitOut = s.unitOut := rfl
@[simp] theorem present_charsOut : (present p s).charsOut = s.charsOut := rfl
@[simp] theorem present_bytesOut : (present p s).bytesOut = s.bytesOut := rfl
@[simp] theorem present_input : (present p s).input = p :: s.input := rfl

end

section
variable (u : UnitOut) (s : State)

@[simp] theorem driveUnit_letters : (driveUnit u s).letters = s.letters := rfl
@[simp] theorem driveUnit_lut : (driveUnit u s).lut = s.lut := rfl
@[simp] theorem driveUnit_phase : (driveUnit u s).phase = s.phase := rfl
@[simp] theorem driveUnit_cnt : (driveUnit u s).cnt = s.cnt := rfl
@[simp] theorem driveUnit_tbuf : (driveUnit u s).tbuf = s.tbuf := rfl
@[simp] theorem driveUnit_hi : (driveUnit u s).hi = s.hi := rfl
@[simp] theorem driveUnit_err : (driveUnit u s).err = s.err := rfl
@[simp] theorem driveUnit_out : (driveUnit u s).out = s.out := rfl
@[simp] theorem driveUnit_unitOut : (driveUnit u s).unitOut = u := rfl
@[simp] theorem driveUnit_charsOut : (driveUnit u s).charsOut = s.charsOut := rfl
@[simp] theorem driveUnit_bytesOut : (driveUnit u s).bytesOut = s.bytesOut := rfl
@[simp] theorem driveUnit_input : (driveUnit u s).input = s.input := rfl

end

section
variable (w : EncodedWord) (s : State)

@[simp] theorem driveChars_letters : (driveChars w s).letters = s.letters := rfl
@[simp] theorem driveChars_lut : (driveChars w s).lut = s.lut := rfl
@[simp] theorem driveChars_phase : (driveChars w s).phase = s.phase := rfl
@[simp] theorem driveChars_cnt : (driveChars w s).cnt = s.cnt := rfl
@[simp] theorem driveChars_tbuf : (driveChars w s).tbuf = s.tbuf := rfl
@[simp] theorem driveChars_hi : (driveChars w s).hi = s.hi := rfl
@[simp] theorem driveChars_err : (driveChars w s).err = s.err := rfl
@[simp] theorem driveChars_out : (driveChars w s).out = ⟨w, true, s.out.byteValid, s.out.byte, s.out.endOk⟩ := rfl
@[simp] theorem driveChars_unitOut : (driveChars w s).unitOut = s.unitOut := rfl
@[simp] theorem driveChars_charsOut : (driveChars w s).charsOut = s.charsOut := rfl
@[simp] theorem driveChars_bytesOut : (driveChars w s).bytesOut = s.bytesOut := rfl
@[simp] theorem driveChars_input : (driveChars w s).input = s.input := rfl

end

section
variable (w : EncodedWord) (s : State)

@[simp] theorem emitChars_letters : (emitChars w s).letters = s.letters := rfl
@[simp] theorem emitChars_lut : (emitChars w s).lut = s.lut := rfl
@[simp] theorem emitChars_phase : (emitChars w s).phase = s.phase := rfl
@[simp] theorem emitChars_cnt : (emitChars w s).cnt = s.cnt := rfl
@[simp] theorem emitChars_tbuf : (emitChars w s).tbuf = s.tbuf := rfl
@[simp] theorem emitChars_hi : (emitChars w s).hi = s.hi := rfl
@[simp] theorem emitChars_err : (emitChars w s).err = s.err := rfl
@[simp] theorem emitChars_out : (emitChars w s).out = s.out := rfl
@[simp] theorem emitChars_unitOut : (emitChars w s).unitOut = s.unitOut := rfl
@[simp] theorem emitChars_charsOut : (emitChars w s).charsOut = s.charsOut ++ charsOfWord w := rfl
@[simp] theorem emitChars_bytesOut : (emitChars w s).bytesOut = s.bytesOut := rfl
@[simp] theorem emitChars_input : (emitChars w s).input = s.input := rfl

end

section
variable (b : Byte) (s : State)

@[simp] theorem driveByte_letters : (driveByte b s).letters = s.letters := rfl
@[simp] theorem driveByte_lut : (driveByte b s).lut = s.lut := rfl
@[simp] theorem driveByte_phase : (driveByte b s).phase = s.phase := rfl
@[simp] theorem driveByte_cnt : (driveByte b s).cnt = s.cnt := rfl
@[simp] theorem driveByte_tbuf : (driveByte b s).tbuf = s.tbuf := rfl
@[simp] theorem driveByte_hi : (driveByte b s).hi = s.hi := rfl
@[simp] theorem driveByte_err : (driveByte b s).err = s.err := rfl
@[simp] theorem driveByte_out : (driveByte b s).out = ⟨s.out.chars, s.out.charsValid, true, b, s.out.endOk⟩ := rfl
@[simp] theorem driveByte_unitOut : (driveByte b s).unitOut = s.unitOut := rfl
@[simp] theorem driveByte_charsOut : (driveByte b s).charsOut = s.charsOut := rfl
@[simp] theorem driveByte_bytesOut : (driveByte b s).bytesOut = s.bytesOut := rfl
@[simp] theorem driveByte_input : (driveByte b s).input = s.input := rfl

end

section
variable (b : Byte) (s : State)

@[simp] theorem emitByte_letters : (emitByte b s).letters = s.letters := rfl
@[simp] theorem emitByte_lut : (emitByte b s).lut = s.lut := rfl
@[simp] theorem emitByte_phase : (emitByte b s).phase = s.phase := rfl
@[simp] theorem emitByte_cnt : (emitByte b s).cnt = s.cnt := rfl
@[simp] theorem emitByte_tbuf : (emitByte b s).tbuf = s.tbuf := rfl
@[simp] theorem emitByte_hi : (emitByte b s).hi = s.hi := rfl
@[simp] theorem emitByte_err : (emitByte b s).err = s.err := rfl
@[simp] theorem emitByte_out : (emitByte b s).out = s.out := rfl
@[simp] theorem emitByte_unitOut : (emitByte b s).unitOut = s.unitOut := rfl
@[simp] theorem emitByte_charsOut : (emitByte b s).charsOut = s.charsOut := rfl
@[simp] theorem emitByte_bytesOut : (emitByte b s).bytesOut = s.bytesOut ++ [b] := rfl
@[simp] theorem emitByte_input : (emitByte b s).input = s.input := rfl

end

section
variable (v : Bool) (s : State)

@[simp] theorem driveEndOk_letters : (driveEndOk v s).letters = s.letters := rfl
@[simp] theorem driveEndOk_lut : (driveEndOk v s).lut = s.lut := rfl
@[simp] theorem driveEndOk_phase : (driveEndOk v s).phase = s.phase := rfl
@[simp] theorem driveEndOk_cnt : (driveEndOk v s).cnt = s.cnt := rfl
@[simp] theorem driveEndOk_tbuf : (driveEndOk v s).tbuf = s.tbuf := rfl
@[simp] theorem driveEndOk_hi : (driveEndOk v s).hi = s.hi := rfl
@[simp] theorem driveEndOk_err : (driveEndOk v s).err = s.err := rfl
@[simp] theorem driveEndOk_out : (driveEndOk v s).out = ⟨s.out.chars, s.out.charsValid, s.out.byteValid, s.out.byte, v⟩ := rfl
@[simp] theorem driveEndOk_unitOut : (driveEndOk v s).unitOut = s.unitOut := rfl
@[simp] theorem driveEndOk_charsOut : (driveEndOk v s).charsOut = s.charsOut := rfl
@[simp] theorem driveEndOk_bytesOut : (driveEndOk v s).bytesOut = s.bytesOut := rfl
@[simp] theorem driveEndOk_input : (driveEndOk v s).input = s.input := rfl

end

section
variable (v : BitVec 1) (s : State)

@[simp] theorem setPhase_letters : (setPhase v s).letters = s.letters := rfl
@[simp] theorem setPhase_lut : (setPhase v s).lut = s.lut := rfl
@[simp] theorem setPhase_phase : (setPhase v s).phase = v := rfl
@[simp] theorem setPhase_cnt : (setPhase v s).cnt = s.cnt := rfl
@[simp] theorem setPhase_tbuf : (setPhase v s).tbuf = s.tbuf := rfl
@[simp] theorem setPhase_hi : (setPhase v s).hi = s.hi := rfl
@[simp] theorem setPhase_err : (setPhase v s).err = s.err := rfl
@[simp] theorem setPhase_out : (setPhase v s).out = s.out := rfl
@[simp] theorem setPhase_unitOut : (setPhase v s).unitOut = s.unitOut := rfl
@[simp] theorem setPhase_charsOut : (setPhase v s).charsOut = s.charsOut := rfl
@[simp] theorem setPhase_bytesOut : (setPhase v s).bytesOut = s.bytesOut := rfl
@[simp] theorem setPhase_input : (setPhase v s).input = s.input := rfl

end

section
variable (v : BitVec 2) (s : State)

@[simp] theorem setCnt_letters : (setCnt v s).letters = s.letters := rfl
@[simp] theorem setCnt_lut : (setCnt v s).lut = s.lut := rfl
@[simp] theorem setCnt_phase : (setCnt v s).phase = s.phase := rfl
@[simp] theorem setCnt_cnt : (setCnt v s).cnt = v := rfl
@[simp] theorem setCnt_tbuf : (setCnt v s).tbuf = s.tbuf := rfl
@[simp] theorem setCnt_hi : (setCnt v s).hi = s.hi := rfl
@[simp] theorem setCnt_err : (setCnt v s).err = s.err := rfl
@[simp] theorem setCnt_out : (setCnt v s).out = s.out := rfl
@[simp] theorem setCnt_unitOut : (setCnt v s).unitOut = s.unitOut := rfl
@[simp] theorem setCnt_charsOut : (setCnt v s).charsOut = s.charsOut := rfl
@[simp] theorem setCnt_bytesOut : (setCnt v s).bytesOut = s.bytesOut := rfl
@[simp] theorem setCnt_input : (setCnt v s).input = s.input := rfl

end

section
variable (v : Nibble) (s : State)

@[simp] theorem setHi_letters : (setHi v s).letters = s.letters := rfl
@[simp] theorem setHi_lut : (setHi v s).lut = s.lut := rfl
@[simp] theorem setHi_phase : (setHi v s).phase = s.phase := rfl
@[simp] theorem setHi_cnt : (setHi v s).cnt = s.cnt := rfl
@[simp] theorem setHi_tbuf : (setHi v s).tbuf = s.tbuf := rfl
@[simp] theorem setHi_hi : (setHi v s).hi = v := rfl
@[simp] theorem setHi_err : (setHi v s).err = s.err := rfl
@[simp] theorem setHi_out : (setHi v s).out = s.out := rfl
@[simp] theorem setHi_unitOut : (setHi v s).unitOut = s.unitOut := rfl
@[simp] theorem setHi_charsOut : (setHi v s).charsOut = s.charsOut := rfl
@[simp] theorem setHi_bytesOut : (setHi v s).bytesOut = s.bytesOut := rfl
@[simp] theorem setHi_input : (setHi v s).input = s.input := rfl

end

section
variable (c : Byte) (s : State)

@[simp] theorem storeChar_letters : (storeChar c s).letters = s.letters := rfl
@[simp] theorem storeChar_lut : (storeChar c s).lut = s.lut := rfl
@[simp] theorem storeChar_phase : (storeChar c s).phase = s.phase := rfl
@[simp] theorem storeChar_cnt : (storeChar c s).cnt = s.cnt := rfl
@[simp] theorem storeChar_tbuf : (storeChar c s).tbuf = tbufWrite s.tbuf s.cnt.toFin c := rfl
@[simp] theorem storeChar_hi : (storeChar c s).hi = s.hi := rfl
@[simp] theorem storeChar_err : (storeChar c s).err = s.err := rfl
@[simp] theorem storeChar_out : (storeChar c s).out = s.out := rfl
@[simp] theorem storeChar_unitOut : (storeChar c s).unitOut = s.unitOut := rfl
@[simp] theorem storeChar_charsOut : (storeChar c s).charsOut = s.charsOut := rfl
@[simp] theorem storeChar_bytesOut : (storeChar c s).bytesOut = s.bytesOut := rfl
@[simp] theorem storeChar_input : (storeChar c s).input = s.input := rfl

end

section
variable (e : FormatError) (s : State)

@[simp] theorem raiseFormatError_letters : (raiseFormatError e s).letters = s.letters := rfl
@[simp] theorem raiseFormatError_lut : (raiseFormatError e s).lut = s.lut := rfl
@[simp] theorem raiseFormatError_phase : (raiseFormatError e s).phase = s.phase := rfl
@[simp] theorem raiseFormatError_cnt : (raiseFormatError e s).cnt = s.cnt := rfl
@[simp] theorem raiseFormatError_tbuf : (raiseFormatError e s).tbuf = s.tbuf := rfl
@[simp] theorem raiseFormatError_hi : (raiseFormatError e s).hi = s.hi := rfl
@[simp] theorem raiseFormatError_err : (raiseFormatError e s).err = errorCode e := rfl
@[simp] theorem raiseFormatError_out : (raiseFormatError e s).out = s.out := rfl
@[simp] theorem raiseFormatError_unitOut : (raiseFormatError e s).unitOut = s.unitOut := rfl
@[simp] theorem raiseFormatError_charsOut : (raiseFormatError e s).charsOut = s.charsOut := rfl
@[simp] theorem raiseFormatError_bytesOut : (raiseFormatError e s).bytesOut = s.bytesOut := rfl
@[simp] theorem raiseFormatError_input : (raiseFormatError e s).input = s.input := rfl

end

section
variable (s : State)

@[simp] theorem clearDecoder_letters : (clearDecoder s).letters = s.letters := rfl
@[simp] theorem clearDecoder_lut : (clearDecoder s).lut = s.lut := rfl
@[simp] theorem clearDecoder_phase : (clearDecoder s).phase = 0#1 := rfl
@[simp] theorem clearDecoder_cnt : (clearDecoder s).cnt = 0#2 := rfl
@[simp] theorem clearDecoder_tbuf : (clearDecoder s).tbuf = ⟨0x00#8, 0x00#8, 0x00#8, 0x00#8⟩ := rfl
@[simp] theorem clearDecoder_hi : (clearDecoder s).hi = 0x0#4 := rfl
@[simp] theorem clearDecoder_err : (clearDecoder s).err = 0#2 := rfl
@[simp] theorem clearDecoder_out : (clearDecoder s).out = s.out := rfl
@[simp] theorem clearDecoder_unitOut : (clearDecoder s).unitOut = s.unitOut := rfl
@[simp] theorem clearDecoder_charsOut : (clearDecoder s).charsOut = s.charsOut := rfl
@[simp] theorem clearDecoder_bytesOut : (clearDecoder s).bytesOut = s.bytesOut := rfl
@[simp] theorem clearDecoder_input : (clearDecoder s).input = s.input := rfl

end

section reset
variable (L : Letters) (h : L.wf = true)

@[simp] theorem State.resetWith_letters : (State.resetWith L h).letters = L := rfl
@[simp] theorem State.resetWith_lut : (State.resetWith L h).lut = romContents L := rfl
@[simp] theorem State.resetWith_phase : (State.resetWith L h).phase = 0#1 := rfl
@[simp] theorem State.resetWith_cnt : (State.resetWith L h).cnt = 0#2 := rfl
@[simp] theorem State.resetWith_tbuf : (State.resetWith L h).tbuf = ⟨0x00#8, 0x00#8, 0x00#8, 0x00#8⟩ := rfl
@[simp] theorem State.resetWith_hi : (State.resetWith L h).hi = 0x0#4 := rfl
@[simp] theorem State.resetWith_err : (State.resetWith L h).err = 0#2 := rfl
@[simp] theorem State.resetWith_out : (State.resetWith L h).out = Response.zero := rfl
@[simp] theorem State.resetWith_unitOut : (State.resetWith L h).unitOut = .none := rfl
@[simp] theorem State.resetWith_charsOut : (State.resetWith L h).charsOut = [] := rfl
@[simp] theorem State.resetWith_bytesOut : (State.resetWith L h).bytesOut = [] := rfl
@[simp] theorem State.resetWith_input : (State.resetWith L h).input = [] := rfl

end reset

section response

@[simp] theorem Response.zero_chars : Response.zero.chars = 0#64 := rfl
@[simp] theorem Response.zero_charsValid : Response.zero.charsValid = false := rfl
@[simp] theorem Response.zero_byteValid : Response.zero.byteValid = false := rfl
@[simp] theorem Response.zero_byte : Response.zero.byte = 0x00#8 := rfl
@[simp] theorem Response.zero_endOk : Response.zero.endOk = false := rfl

end response

section tokenBuffer
variable (b : TokenBuf) (c : Byte)

@[simp] theorem tbufRead_tbufWrite_same (p : Pos) : tbufRead (tbufWrite b p c) p = c := by
  fin_cases p <;> rfl

@[simp] theorem tbufRead_tbufWrite_other (p q : Pos) (h : q ≠ p) : tbufRead (tbufWrite b p c) q = tbufRead b q := by
  fin_cases p <;> fin_cases q <;> first | rfl | exact absurd rfl h

end tokenBuffer

end Sys2Proof.Machine
end

