-- ==== Sys2Proof/Laws/Memory.lean ====
section
/-! SUPPORT. The LUT and LETTERS: the ROM's contents meet `Memory.wf`, a read of a well-formed memory gives the token,
and every operation over the state keeps both (spec/10_state.md R31, R35, spec/41_lut_classifier.md R84). -/

namespace Sys2Proof.Machine

theorem romContents_wf (L : Letters) : Memory.wf L (romContents L) = true := by simp [Memory.wf]

theorem resetWith_memory_wf (L : Letters) (h : L.wf = true) :
    Memory.wf (State.resetWith L h).letters (State.resetWith L h).lut = true := romContents_wf L

theorem reset_memory_wf : Memory.wf State.reset.letters State.reset.lut = true := romContents_wf Config.letters

theorem memory_wf_iff (L : Letters) (m : Memory) : Memory.wf L m = true ↔ m = romContents L := by simp [Memory.wf]

theorem romContents_read (L : Letters) (n : Nibble) : (romContents L)[n.toNat] = caseEncode L n := by
  have h : ∀ i : Fin 16, (romContents L)[i.val] = caseEncode L (BitVec.ofFin i) := by
    intro i; fin_cases i <;> rfl
  exact h n.toFin

/-- A read of a well-formed memory gives the case encoder's token (R84). -/
theorem lutRead_of_wf {s : State} (h : Memory.wf s.letters s.lut = true) (n : Nibble) :
    lutRead s n = caseEncode s.letters n := by
  have e := (memory_wf_iff _ _).mp h
  simp only [lutRead, e, romContents_read]

/-- Reads depend on the memory alone. -/
theorem lutRead_congr {s t : State} (h : t.lut = s.lut) (n : Nibble) : lutRead t n = lutRead s n := by
  simp [lutRead, h]

/-- Every operation over the state keeps the memory; with `operations_keep_letters` it keeps its form. -/
theorem operations_keep_memory (s : State) :
    (beginStep s).lut = s.lut ∧ (∀ p, (present p s).lut = s.lut) ∧ (∀ u, (driveUnit u s).lut = s.lut) ∧
    (∀ w, (driveChars w s).lut = s.lut) ∧ (∀ w, (emitChars w s).lut = s.lut) ∧ (∀ b, (driveByte b s).lut = s.lut) ∧
    (∀ b, (emitByte b s).lut = s.lut) ∧ (∀ v, (driveEndOk v s).lut = s.lut) ∧ (∀ v, (setPhase v s).lut = s.lut) ∧
    (∀ v, (setCnt v s).lut = s.lut) ∧ (∀ v, (setHi v s).lut = s.lut) ∧ (∀ c, (storeChar c s).lut = s.lut) ∧
    (∀ e, (raiseFormatError e s).lut = s.lut) ∧ (clearDecoder s).lut = s.lut := by
  simp

/-- No operation over the state changes LETTERS (R35). -/
theorem operations_keep_letters (s : State) :
    (beginStep s).letters = s.letters ∧ (∀ p, (present p s).letters = s.letters) ∧
    (∀ u, (driveUnit u s).letters = s.letters) ∧ (∀ w, (driveChars w s).letters = s.letters) ∧
    (∀ w, (emitChars w s).letters = s.letters) ∧ (∀ b, (driveByte b s).letters = s.letters) ∧
    (∀ b, (emitByte b s).letters = s.letters) ∧ (∀ v, (driveEndOk v s).letters = s.letters) ∧
    (∀ v, (setPhase v s).letters = s.letters) ∧ (∀ v, (setCnt v s).letters = s.letters) ∧
    (∀ v, (setHi v s).letters = s.letters) ∧ (∀ c, (storeChar c s).letters = s.letters) ∧
    (∀ e, (raiseFormatError e s).letters = s.letters) ∧ (clearDecoder s).letters = s.letters := by
  simp

end Sys2Proof.Machine
end

