-- ==== Sys2Proof/Laws/Operands.lean ====
section
/-! SUPPORT. What the slicing and packing functions do to one another (spec/30_encoding.md R57, R59, R64). -/

namespace Sys2Proof.Machine

theorem joinNibbles_eq_append (h l : Nibble) : joinNibbles h l = h ++ l := by
  revert h l; decide

@[simp] theorem hiNibble_append (h l : Nibble) : hiNibble (h ++ l) = h := by
  revert h l; decide

@[simp] theorem loNibble_append (h l : Nibble) : loNibble (h ++ l) = l := by
  revert h l; decide

theorem append_nibbles (b : Byte) : hiNibble b ++ loNibble b = b := by
  revert b; decide

/-- Two token words with the same four characters are the same word. -/
theorem tokenWord_ext {t u : TokenWord} (h : ∀ p : Pos, tokenChar t p = tokenChar u p) : t = u := by
  have h0 := h 0
  have h1 := h 1
  have h2 := h 2
  have h3 := h 3
  simp only [tokenChar] at h0 h1 h2 h3
  apply BitVec.eq_of_getLsbD_eq
  intro i hi
  have k0 := congrArg (fun v => v.getLsbD (i - 24)) h0
  have k1 := congrArg (fun v => v.getLsbD (i - 16)) h1
  have k2 := congrArg (fun v => v.getLsbD (i - 8)) h2
  have k3 := congrArg (fun v => v.getLsbD i) h3
  simp only [BitVec.getLsbD_extractLsb'] at k0 k1 k2 k3
  rcases Nat.lt_or_ge i 8 with a | a
  · simpa [a] using k3
  rcases Nat.lt_or_ge i 16 with b | b
  · have e : 8 + (i - 8) = i := by omega
    have d : i - 8 < 8 := by omega
    simpa [d, e] using k2
  rcases Nat.lt_or_ge i 24 with c | c
  · have e : 16 + (i - 16) = i := by omega
    have d : i - 16 < 8 := by omega
    simpa [d, e] using k1
  · have e : 24 + (i - 24) = i := by omega
    have d : i - 24 < 8 := by omega
    simpa [d, e] using k0

section packing
variable (c0 c1 c2 c3 : Byte)

@[simp] theorem tokenChar_packToken_zero : tokenChar (packToken c0 c1 c2 c3) 0 = c0 := by
  ext i hi; simp [tokenChar, packToken, BitVec.getElem_extractLsb']; grind

@[simp] theorem tokenChar_packToken_one : tokenChar (packToken c0 c1 c2 c3) 1 = c1 := by
  ext i hi; simp [tokenChar, packToken, BitVec.getElem_extractLsb']; grind

@[simp] theorem tokenChar_packToken_two : tokenChar (packToken c0 c1 c2 c3) 2 = c2 := by
  ext i hi; simp [tokenChar, packToken, BitVec.getElem_extractLsb']; grind

@[simp] theorem tokenChar_packToken_three : tokenChar (packToken c0 c1 c2 c3) 3 = c3 := by
  ext i hi; simp [tokenChar, packToken, BitVec.getElem_extractLsb']; grind

end packing

/-- Stream character i of an encoded byte is character i of the first token, or i - 4 of the second (R42, R60). -/
theorem streamChar_packPair (t u : TokenWord) (i : Fin 8) :
    streamChar (packPair t u) i =
      if h : i.val < 4 then tokenChar t ⟨i.val, h⟩ else tokenChar u ⟨i.val - 4, by omega⟩ := by
  apply BitVec.eq_of_getLsbD_eq
  intro j hj
  rw [streamChar, packPair, BitVec.getLsbD_extractLsb',
    show (t ++ u : BitVec 64).getLsbD _ = _ from BitVec.getLsbD_append]
  fin_cases i <;> simp [tokenChar, hj] <;> grind

/-- The upper-case form of a character code is never the code itself (R11). -/
theorem up_ne (c : Byte) : up c ≠ c := by
  revert c; decide

end Sys2Proof.Machine
end

