-- ==== Sys2Proof/Laws/Ops.lean ====
section
/-! SUPPORT. One lemma per shared operation that says everything it can do. -/

namespace Sys2Proof.Machine

theorem fetch_nil {s : State} (h : s.input = []) : fetch s = none := by simp [fetch, h]

theorem fetch_cons {s : State} {p : PortInput} {rest : List PortInput} (h : s.input = p :: rest) :
    fetch s = some (p, { s with input := rest }) := by simp [fetch, h]

/-- Everything a step that answers next can have done. -/
theorem step_next_cases {s t : State} (h : step s = .next t) :
    (s.input = [] ∧ t = s) ∨
    ∃ p rest i, s.input = p :: rest ∧ decode p = .instr i ∧ exec i { s with input := rest } = .next t := by
  cases hin : s.input with
  | nil =>
    simp only [step, fetch_nil hin] at h
    cases h
    exact .inl ⟨rfl, rfl⟩
  | cons p rest =>
    simp only [step, fetch_cons hin] at h
    cases hd : decode p with
    | instr i =>
      rw [hd] at h
      exact .inr ⟨p, rest, i, rfl, hd, h⟩
    | reject e =>
      rw [hd] at h
      cases h

/-- What the classifier answers: the case pattern of a valid token, or not valid with the nibble 0x0 (R89). -/
theorem classify_cases (L : Letters) (t : TokenWord) :
    (tokenValid L t = true ∧ classify L t = ⟨true, casePattern L t⟩) ∨
    (tokenValid L t = false ∧ classify L t = ⟨false, 0x0#4⟩) := by
  cases h : tokenValid L t
  · exact .inr ⟨rfl, by simp [classify, h]⟩
  · exact .inl ⟨rfl, by simp [classify, h]⟩

theorem classify_valid (L : Letters) (t : TokenWord) : (classify L t).valid = tokenValid L t := by
  rcases classify_cases L t with ⟨h, e⟩ | ⟨h, e⟩ <;> rw [e, h]

/-- The three things TokenStep can do (R100). -/
theorem tokenStep_cases (t : TokenWord) (s : State) :
    (tokenValid s.letters t = false ∧ tokenStep t s = raiseFormatError .badLetter s) ∨
    (tokenValid s.letters t = true ∧ s.phase = 0#1 ∧
      tokenStep t s = setPhase 1#1 (setHi (casePattern s.letters t) s)) ∨
    (tokenValid s.letters t = true ∧ s.phase = 1#1 ∧
      tokenStep t s =
        setPhase 0#1 (emitByte (joinNibbles s.hi (casePattern s.letters t))
          (driveByte (joinNibbles s.hi (casePattern s.letters t)) s))) := by
  rcases classify_cases s.letters t with ⟨h, e⟩ | ⟨h, e⟩
  · by_cases hp : s.phase = 0#1
    · exact .inr (.inl ⟨h, hp, by simp [tokenStep, e, hp]⟩)
    · have h1 : s.phase = 1#1 := by
        revert hp
        generalize s.phase = v
        revert v
        decide
      exact .inr (.inr ⟨h, h1, by simp [tokenStep, e, h1]⟩)
  · exact .inl ⟨h, by simp [tokenStep, e]⟩

/-- The two things DEC_CHAR can do outside the Error state (R99). -/
theorem acceptChar_cases (c : Byte) (s : State) :
    (s.cnt ≠ 3#2 ∧ acceptChar c s = setCnt (s.cnt + 1#2) (storeChar c s)) ∨
    (s.cnt = 3#2 ∧
      acceptChar c s = tokenStep (tbufToken (tbufWrite s.tbuf s.cnt.toFin c)) (setCnt 0#2 (storeChar c s))) := by
  by_cases h : s.cnt = 3#2
  · exact .inr ⟨h, by simp [acceptChar, h]⟩
  · exact .inl ⟨h, by simp [acceptChar, h]⟩

/-- The four things the length check of DEC_END can do (R101). -/
theorem endCheck_cases (s : State) :
    (s.err ≠ 0#2 ∧ endCheck s = s) ∨
    (s.err = 0#2 ∧ s.cnt ≠ 0#2 ∧ endCheck s = raiseFormatError .partialToken s) ∨
    (s.err = 0#2 ∧ s.cnt = 0#2 ∧ s.phase = 1#1 ∧ endCheck s = raiseFormatError .oddToken s) ∨
    (s.err = 0#2 ∧ s.cnt = 0#2 ∧ s.phase ≠ 1#1 ∧ endCheck s = s) := by
  by_cases he : s.err = 0#2
  · by_cases hc : s.cnt = 0#2
    · by_cases hp : s.phase = 1#1
      · exact .inr (.inr (.inl ⟨he, hc, hp, by simp [endCheck, he, hc, hp]⟩))
      · exact .inr (.inr (.inr ⟨he, hc, hp, by simp [endCheck, he, hc, hp]⟩))
    · exact .inr (.inl ⟨he, hc, by simp [endCheck, he, hc]⟩)
  · exact .inl ⟨he, by simp [endCheck, he]⟩

end Sys2Proof.Machine
end

