-- ==== Sys2Proof/Laws/Exec.lean ====
section
/-! SUPPORT. What each meaning can do, said once: one equation per meaning, and one inversion lemma for `exec`. -/

namespace Sys2Proof.Machine

theorem phase_ne_zero {v : BitVec 1} (h : v ≠ 0#1) : v = 1#1 := by
  revert v; decide

theorem phase_ne_one {v : BitVec 1} (h : v ≠ 1#1) : v = 0#1 := by
  revert v; decide

/-- DEC_CHAR in the Error state (R99, R116). -/
theorem execDecChar_error {c : Byte} {s : State} (h : s.err ≠ 0#2) : execDecChar c s = .next (beginStep s) := by
  simp only [execDecChar, if_neg h]

/-- DEC_CHAR outside the Error state (R99). -/
theorem execDecChar_accept {c : Byte} {s : State} (h : s.err = 0#2) :
    execDecChar c s = .next (acceptChar c (beginStep s)) := by
  simp only [execDecChar, if_pos h]

/-- The token word of a buffer, its four slots in order. -/
theorem tbufToken_eq (b : TokenBuf) : tbufToken b = packToken b.c0 b.c1 b.c2 b.c3 := rfl

/-- The character that completes a token goes into the last slot. -/
theorem storeChar_last {c : Byte} {s : State} (h : s.cnt = 3#2) :
    storeChar c s = { s with tbuf := { s.tbuf with c3 := c } } := by
  simp only [storeChar, h]; rfl

/-- The four things accepting a character can do: store it; or complete a token that is invalid, a valid high token, or
a valid low token (R99, R100). -/
theorem acceptChar_token_cases (c : Byte) (s : State) :
    (s.cnt ≠ 3#2 ∧ acceptChar c s = setCnt (s.cnt + 1#2) (storeChar c s)) ∨
    (s.cnt = 3#2 ∧ tokenValid s.letters (packToken s.tbuf.c0 s.tbuf.c1 s.tbuf.c2 c) = false ∧
      acceptChar c s = { s with tbuf := { s.tbuf with c3 := c }, cnt := 0#2, err := 1#2 }) ∨
    (s.cnt = 3#2 ∧ tokenValid s.letters (packToken s.tbuf.c0 s.tbuf.c1 s.tbuf.c2 c) = true ∧ s.phase = 0#1 ∧
      acceptChar c s =
        { s with
          tbuf := { s.tbuf with c3 := c }, cnt := 0#2, phase := 1#1
          hi := casePattern s.letters (packToken s.tbuf.c0 s.tbuf.c1 s.tbuf.c2 c) }) ∨
    (s.cnt = 3#2 ∧ tokenValid s.letters (packToken s.tbuf.c0 s.tbuf.c1 s.tbuf.c2 c) = true ∧ s.phase = 1#1 ∧
      acceptChar c s =
        { s with
          tbuf := { s.tbuf with c3 := c }, cnt := 0#2, phase := 0#1
          out := { s.out with
            byteValid := true
            byte := joinNibbles s.hi (casePattern s.letters (packToken s.tbuf.c0 s.tbuf.c1 s.tbuf.c2 c)) }
          bytesOut := s.bytesOut ++
            [joinNibbles s.hi (casePattern s.letters (packToken s.tbuf.c0 s.tbuf.c1 s.tbuf.c2 c))] }) := by
  rcases acceptChar_cases c s with h | ⟨h, e⟩
  · exact .inl h
  · have hw : tbufWrite s.tbuf s.cnt.toFin c = { s.tbuf with c3 := c } := by rw [h]; rfl
    rw [hw, storeChar_last h] at e
    rcases tokenStep_cases (tbufToken { s.tbuf with c3 := c })
        (setCnt 0#2 { s with tbuf := { s.tbuf with c3 := c } }) with ⟨v, f⟩ | ⟨v, p, f⟩ | ⟨v, p, f⟩
    · exact .inr (.inl ⟨h, v, e.trans f⟩)
    · exact .inr (.inr (.inl ⟨h, v, p, e.trans f⟩))
    · exact .inr (.inr (.inr ⟨h, v, p, e.trans f⟩))

/-- Everything an operation that answers next can have done. -/
theorem exec_next_cases {i : Instr} {s t : State} (h : exec i s = .next t) :
    (∃ b, i = .encByte b ∧ t = emitChars (packPair (lutRead s (hiNibble b)) (lutRead s (loNibble b)))
      (driveChars (packPair (lutRead s (hiNibble b)) (lutRead s (loNibble b))) (beginStep s))) ∨
    (∃ u, isUnitOp i = true ∧ t = driveUnit u (beginStep s)) ∨
    (isClearing i = true ∧ t = clearDecoder (beginStep s)) ∨
    (i = .decEnd ∧ t = driveEndOk (endOkOf (endCheck (beginStep s))) (endCheck (beginStep s))) ∨
    (∃ c, i = .decChar c ∧ s.err ≠ 0#2 ∧ t = beginStep s) ∨
    (∃ c, i = .decChar c ∧ s.err = 0#2 ∧ t = acceptChar c (beginStep s)) := by
  cases i with
  | encByte b => cases h; exact .inl ⟨b, rfl, rfl⟩
  | decChar c =>
    by_cases he : s.err = 0#2
    · have e : Host.Outcome.next t = .next (acceptChar c (beginStep s)) := h.symm.trans (execDecChar_accept he)
      cases e
      exact .inr (.inr (.inr (.inr (.inr ⟨c, rfl, he, rfl⟩))))
    · have e : Host.Outcome.next t = .next (beginStep s) := h.symm.trans (execDecChar_error he)
      cases e
      exact .inr (.inr (.inr (.inr (.inl ⟨c, rfl, he, rfl⟩))))
  | decEnd => cases h; exact .inr (.inr (.inr (.inl ⟨rfl, rfl⟩)))
  | decClear => cases h; exact .inr (.inr (.inl ⟨by decide, rfl⟩))
  | rst => cases h; exact .inr (.inr (.inl ⟨by decide, rfl⟩))
  | tokenOf n => cases h; exact .inr (.inl ⟨_, rfl, rfl⟩)
  | classify t => cases h; exact .inr (.inl ⟨_, rfl, rfl⟩)
  | split b => cases h; exact .inr (.inl ⟨_, rfl, rfl⟩)
  | join a b => cases h; exact .inr (.inl ⟨_, rfl, rfl⟩)

/-- A run of no operation ends where it begins. -/
@[simp] theorem runOps_nil (s : State) : runOps [] s = .next s := rfl

/-- A run goes on from the next state of its first operation. -/
theorem runOps_cons {i : Instr} {s t : State} (h : exec i s = .next t) (is : List Instr) :
    runOps (i :: is) s = runOps is t := by
  simp only [runOps, h]

end Sys2Proof.Machine
end

