-- ==== Sys2Proof/Laws/PerInstr.lean ====
section
/-! SUPPORT. A family of lemmas about each operation as syntax: its input vector is legal and fits its row of
spec/opcode_table.json. -/

namespace Sys2Proof.Laws.EncodedFitsTable

/-- An input vector fits the table row of an operation: the port of the row, and for a command its match under its
mask (R63, R65). -/
def fitsRow (i : Instr) (p : PortInput) : Prop :=
  match i, p with
  | .encByte _, .cmd w => w &&& 0xF00 = 0x100 ∧ CommandWord.wf w = true
  | .decChar _, .cmd w => w &&& 0xF00 = 0x200 ∧ CommandWord.wf w = true
  | .decEnd, .cmd w => w &&& 0xFFF = 0x300 ∧ CommandWord.wf w = true
  | .decClear, .cmd w => w &&& 0xFFF = 0x400 ∧ CommandWord.wf w = true
  | .tokenOf nib, .lut v => v = nib
  | .classify tok, .cls v => v = tok
  | .split byte, .muxSplit v => v = byte
  | .join hi lo, .muxJoin v => v.extractLsb' 4 4 = hi ∧ v.extractLsb' 0 4 = lo
  | .rst, .rst => True
  | _, _ => False

/-- The encoding of an operation fits the operation's row of the opcode table. -/
def Statement (i : Instr) : Prop := fitsRow i (encode i)

theorem encByte (data : Byte) : Statement (.encByte data) := by
  have h : ∀ d : Byte, (0x1#4 ++ d : CommandWord) &&& 0xF00 = 0x100 ∧ CommandWord.wf (0x1#4 ++ d) = true := by decide
  exact h data

theorem decChar (data : Byte) : Statement (.decChar data) := by
  have h : ∀ d : Byte, (0x2#4 ++ d : CommandWord) &&& 0xF00 = 0x200 ∧ CommandWord.wf (0x2#4 ++ d) = true := by decide
  exact h data

theorem decEnd : Statement .decEnd :=
  (by decide : (0x300 : CommandWord) &&& 0xFFF = 0x300 ∧ CommandWord.wf 0x300 = true)

theorem decClear : Statement .decClear :=
  (by decide : (0x400 : CommandWord) &&& 0xFFF = 0x400 ∧ CommandWord.wf 0x400 = true)

theorem tokenOf (nib : Nibble) : Statement (.tokenOf nib) := rfl

theorem classify (tok : TokenWord) : Statement (.classify tok) := rfl

theorem split (byte : Byte) : Statement (.split byte) := rfl

theorem join (hi lo : Nibble) : Statement (.join hi lo) := by
  have h : ∀ a b : Nibble, (a ++ b : Byte).extractLsb' 4 4 = a ∧ (a ++ b : Byte).extractLsb' 0 4 = b := by decide
  exact h hi lo

theorem rst : Statement .rst := trivial

end Sys2Proof.Laws.EncodedFitsTable
end

