-- ==== Sys2Proof/Tests/Slice0.lean ====
section
/-! SUPPORT. Small tests: the checks of WellFormed.lean refuse ill-formed terms, words written out from the spec decode to
their operations, each operation gives what the vectors of spec/95_test_vectors.md say, and for each statement with
hypotheses there is a state that meets them. -/

namespace Sys2Proof.Tests

open Sys2Proof.Machine

/-- The next state, if there is one. -/
def nextState (o : Host.Outcome State Fault Refusal) : Option State :=
  match o with
  | .next t => some t
  | .fault _ => none
  | .refused _ => none

/-- A decoder state with the given registers and nothing else. -/
def decoder (phase : BitVec 1) (cnt : BitVec 2) (tbuf : TokenBuf) (hi : Nibble) (err : BitVec 2) : State :=
  { State.reset with phase := phase, cnt := cnt, tbuf := tbuf, hi := hi, err := err }

/-- The reset state with some operations issued. -/
def issued (ps : List PortInput) : State := { State.reset with input := ps }

/-! ## The checks of WellFormed.lean -/

/-- R9: meow is allowed. -/
theorem test_letters_meow_wf : Config.letters.wf = true := by decide

/-- R9: an upper-case letter is refused. -/
theorem test_letters_upper_refused : (⟨0x4D, 0x65, 0x6F, 0x77⟩ : Letters).allLower = false := by decide

/-- R9: 0x60 and 0x7B are just outside the lower-case letters. -/
theorem test_letter_bounds : (isLowerLetter 0x60, isLowerLetter 0x61, isLowerLetter 0x7A, isLowerLetter 0x7B)
    = (false, true, true, false) := by decide

/-- R9: a repeated letter is refused. -/
theorem test_letters_repeated_refused : (⟨0x6D, 0x65, 0x6F, 0x6D⟩ : Letters).allDistinct = false := by decide

/-- R67: OP 0x0 and 0x5 are refused. -/
theorem test_op_reserved_refused : (CommandWord.opAssigned 0x0FF, CommandWord.opAssigned 0x500) = (false, false) := by
  decide

/-- R68: DEC_END and DEC_CLEAR with DATA 0x01 are refused. -/
theorem test_data_reserved_refused : (CommandWord.dataAllowed 0x301, CommandWord.dataAllowed 0x401) = (false, false) := by
  decide

/-- R63: the assigned words pass. -/
theorem test_command_words_wf : ([0x100, 0x1FF, 0x200, 0x2FF, 0x300, 0x400].map CommandWord.wf).all id = true := by decide

/-! ## Decoding of words written out from the spec -/

/-- R63, 95 §2.4: OP 0001, DATA 0100 1000. -/
theorem test_decode_encByte : decode (.cmd 0b000101001000) = .instr (.encByte 0x48) := by decide

/-- R72: `DEC_CHAR 'M'` is 0x24D. -/
theorem test_decode_decChar : decode (.cmd 0b001001001101) = .instr (.decChar 0x4D) := by decide

/-- R72: `DEC_END` is 0x300. -/
theorem test_decode_decEnd : decode (.cmd 0b001100000000) = .instr .decEnd := by decide

/-- R102: `DEC_CLEAR` is 0x400. -/
theorem test_decode_decClear : decode (.cmd 0b010000000000) = .instr .decClear := by decide

/-- R65: `nnnn`. -/
theorem test_decode_tokenOf : decode (.lut 0b1000) = .instr (.tokenOf 0x8) := by decide

/-- R65: 32 `t`. -/
theorem test_decode_classify : decode (.cls 0x6D456F77) = .instr (.classify 0x6D456F77) := by decide

/-- R65: `bbbbbbbb`. -/
theorem test_decode_split : decode (.muxSplit 0b10100101) = .instr (.split 0xA5) := by decide

/-- R65: `hhhhllll`. -/
theorem test_decode_join : decode (.muxJoin 0b01101001) = .instr (.join 0x6 0x9) := by decide

/-- R129: `rst` at 1. -/
theorem test_decode_rst : decode .rst = .instr .rst := by decide

/-- 95 §2.8: reserved words are rejected by name. -/
theorem test_decode_reserved :
    (decode (.cmd 0x0FF), decode (.cmd 0x301), decode (.cmd 0x4FF), decode (.cmd 0xFFF)) =
      (.reject (.reservedOpcode 0x0), .reject (.reservedData 0x3 0x01), .reject (.reservedData 0x4 0xFF),
        .reject (.reservedOpcode 0xF)) := by decide

/-- The rows of the opcode table with a match, read and run as table words. -/
theorem test_table_words :
    ([0x148, 0x24D, 0x300, 0x400].map (decodeTableWord 16)) =
      [some (.encByte 0x48), some (.decChar 0x4D), some .decEnd, some .decClear] := by decide

/-- A table word placed at reset is what the next step runs. -/
theorem test_withFetchWord :
    (nextState (step (State.reset.withFetchWord 16 0x26D))).map (fun t => (t.cnt, t.tbuf.c0, t.input)) =
      some (1, 0x6D, []) := by decide

/-- R72: the quoted operands. -/
theorem test_parse_quoted :
    (parseInstr (nameDecChar ++ [quoteMark, 'M', quoteMark]),
      parseInstr (nameClassify ++ [doubleQuoteMark, 'm', 'E', 'o', 'w', doubleQuoteMark])) =
      (some (.decChar 0x4D), some (.classify 0x6D456F77)) := by decide

/-! ## One step of each operation -/

/-- 95 §2.4: `ENC_BYTE 0xA5` gives `MeOwmEoW`, in the Error state too. -/
theorem test_encByte : (nextState (exec (.encByte 0xA5) (decoder 1 2 ⟨1, 2, 3, 4⟩ 7 1))).map (fun t => (t.out.chars, t.err))
    = some (0x4D654F776D456F57, 1) := by decide

/-- 95 §2.4: `ENC_BYTE 0x10` appends `meoWmeow`. -/
theorem test_encByte_emits : (nextState (exec (.encByte 0x10) { State.reset with charsOut := [0x4D] })).map State.charsOut
    = some [0x4D, 0x6D, 0x65, 0x6F, 0x57, 0x6D, 0x65, 0x6F, 0x77] := by decide

/-- 95 §2.5: the low token `Meow` after HI = 0x4 gives the byte 0x48. -/
theorem test_decChar_byte :
    (nextState (exec (.decChar 0x77) (decoder 1 3 ⟨0x4D, 0x65, 0x6F, 0⟩ 4 0))).map
      (fun t => (t.out.byteValid, t.out.byte, t.bytesOut, t.hi, statusO t)) =
      some (true, 0x48, [0x48], 4, 0b00000) := by decide

/-- 95 §2.5: `meOx` as a low token raises BAD_LETTER with PHASE and HI unchanged. -/
theorem test_decChar_bad :
    (nextState (exec (.decChar 0x78) (decoder 1 3 ⟨0x6D, 0x65, 0x4F, 0⟩ 0xF 0))).map
      (fun t => (t.out.byteValid, t.bytesOut, t.hi, statusO t)) =
      some (false, [], 0xF, 0b01100) := by decide

/-- 95 §2.7: PARTIAL_TOKEN is tested before ODD_TOKEN. -/
theorem test_decEnd_partial : (nextState (exec .decEnd (decoder 1 2 ⟨0, 0, 0, 0⟩ 0 0))).map
    (fun t => (t.out.endOk, statusO t)) = some (false, 0b10110) := by decide

/-- 95 §2.6 V8: a lone high token gives ODD_TOKEN. -/
theorem test_decEnd_odd : (nextState (exec .decEnd (decoder 1 0 ⟨0x6D, 0x65, 0x6F, 0x77⟩ 0 0))).map
    (fun t => (t.out.endOk, statusO t)) = some (false, 0b11100) := by decide

/-- 95 §2.7: DEC_CLEAR in the Error state. -/
theorem test_decClear : nextState (exec .decClear (decoder 1 2 ⟨1, 2, 3, 4⟩ 0xF 2)) = some State.reset := by decide

/-- R129: RST with ERR = 3 and PHASE = 1. -/
theorem test_rst : nextState (exec .rst (decoder 1 0 ⟨1, 2, 3, 4⟩ 3 3)) = some State.reset := by decide

/-- R85: `TOKEN_OF 0x4` gives `mEow`. -/
theorem test_tokenOf : (nextState (exec (.tokenOf 0x4) State.reset)).map State.unitOut = some (.token 0x6D456F77) := by
  decide

/-- R89: `mEow` is valid with nibble 0x4. -/
theorem test_classify_valid : (nextState (exec (.classify 0x6D456F77) State.reset)).map State.unitOut
    = some (.classified true 0x4) := by decide

/-- 95 §2.3: 0xED differs from `m` only in bit 7. -/
theorem test_classify_invalid : (nextState (exec (.classify 0xED656F77) State.reset)).map State.unitOut
    = some (.classified false 0x0) := by decide

/-- R79: `SPLIT 0xA5`. -/
theorem test_split : (nextState (exec (.split 0xA5) State.reset)).map State.unitOut = some (.nibbles 0xA 0x5) := by decide

/-- R80: `JOIN 0x4, 0x8`. -/
theorem test_join : (nextState (exec (.join 0x4 0x8) State.reset)).map State.unitOut = some (.byte 0x48) := by decide

/-- R9, R83, R84: a block built with other letters, `purs`, holds `PuRs` at entry 0xA. -/
theorem test_tokenOf_other_letters :
    (nextState (exec (.tokenOf 0xA) (State.resetWith ⟨0x70, 0x75, 0x72, 0x73⟩ (by decide)))).map State.unitOut
      = some (.token 0x50755273) := by decide

/-- R9, R87: in that block `meow` is not a token. -/
theorem test_classify_other_letters :
    (nextState (exec (.classify 0x6D656F77) (State.resetWith ⟨0x70, 0x75, 0x72, 0x73⟩ (by decide)))).map State.unitOut
      = some (.classified false 0x0) := by decide

/-! ## States that meet the hypotheses of the statements -/

theorem witness_DecodedInputIsTheEncoding : decode (.muxJoin 0xF0) = .instr (.join 0xF 0x0) := by decide

theorem witness_CommandOpcodeMap :
    (0x1FF : CommandWord) &&& 0xF00 = 0x100 ∧ (0x200 : CommandWord) &&& 0xF00 = 0x200 ∧
    (0x300 : CommandWord) &&& 0xFFF = 0x300 ∧ (0x400 : CommandWord) &&& 0xFFF = 0x400 ∧
    decode (.cmd 0x2FF) = .instr (.decChar 0xFF) := by decide

theorem witness_ReservedCommandsAreRefused :
    (issued [.cmd 0x500]).input = .cmd 0x500 :: [] ∧ 5 ≤ ((0x500 : CommandWord).extractLsb' 8 4).toNat ∧
    (0x0FF : CommandWord).extractLsb' 8 4 = 0 ∧
    ((0x4FF : CommandWord).extractLsb' 8 4 = 4 ∧ (0x4FF : CommandWord).extractLsb' 0 8 ≠ 0) ∧
    (0x2FF : CommandWord).extractLsb' 8 4 = 2 ∧
    ((0x300 : CommandWord).extractLsb' 8 4 = 3 ∧ (0x300 : CommandWord).extractLsb' 0 8 = 0) := by decide

theorem witness_StepRunsTheDecodedOperation :
    (issued [.cmd 0x26D, .rst]).input = .cmd 0x26D :: [.rst] ∧ decode (.cmd 0x26D) = .instr (.decChar 0x6D) := by decide

theorem witness_StepWithoutInputChangesNothing : State.reset.input = [] := rfl

theorem witness_PendingOperationsRunInOrder : (decoder 1 3 ⟨1, 2, 3, 4⟩ 5 0).input = [] := rfl

theorem witness_LegalInputIsNeverRefused :
    ∀ p ∈ (issued [.cmd 0x1FF, .cls 0, .cmd 0x400, .rst]).input, legalInput p = true := by decide

/-- For LutContents, EncodedCharactersSpellTheByte, EncodeCallEmitsTheEncodedStream and DecodingUndoesEncoding. -/
theorem witness_memory_wf :
    Memory.wf (decoder 1 2 ⟨1, 2, 3, 4⟩ 7 1).letters (decoder 1 2 ⟨1, 2, 3, 4⟩ 7 1).lut = true ∧
    (decoder 1 2 ⟨1, 2, 3, 4⟩ 7 1).letters = Config.letters := ⟨romContents_wf _, rfl⟩

/-- For ResetValues and ResetMeetsTheInvariant. -/
theorem witness_letters_wf : Config.letters.wf = true ∧ (⟨0x70, 0x75, 0x72, 0x73⟩ : Letters).wf = true := by decide

theorem witness_TokensAreDistinctAndExhaustive :
    caseEncode Config.letters 0xF = 0x4D454F57 ∧
    ∀ p : Pos, (0x4D454F57 : TokenWord).extractLsb' (24 - 8 * p.val) 8 = letterAt Config.letters p - 0x20 := by decide

theorem witness_ClassifierInvertsCaseEncoder :
    classify Config.letters 0x4D454F57 = ⟨true, 0xF⟩ ∧ ∀ n : Nibble, caseEncode Config.letters n ≠ 0x6E656F77 := by decide

theorem witness_LetterIdentityCheck :
    Config.letters.wf = true ∧ (0 : Pos) ≠ 3 ∧ matchLetter Config.letters 0 0x4D = true ∧
    (∀ c ∈ ([0x20, 0x40, 0x5B, 0x60, 0x7B, 0xED] : List Byte),
      ¬ (0x41 ≤ c.toNat ∧ c.toNat ≤ 0x5A) ∧ ¬ (0x61 ≤ c.toNat ∧ c.toNat ≤ 0x7A)) := by decide

theorem witness_CasePatternIsBitFiveInverted :
    Config.letters.wf = true ∧ classify Config.letters 0x6D454F57 = ⟨true, 0x7⟩ := by decide

theorem witness_UnitEvaluationsArePure :
    ([.tokenOf 0xF, .classify 0, .split 0xFF, .join 0 0xF].all isUnitOp) = true ∧
    (decoder 1 2 ⟨1, 2, 3, 4⟩ 7 1).letters = State.reset.letters ∧
    (decoder 1 2 ⟨1, 2, 3, 4⟩ 7 1).lut = State.reset.lut := ⟨by decide, rfl, rfl⟩

theorem witness_EncByteDependsOnDataAndLutOnly : (decoder 1 2 ⟨1, 2, 3, 4⟩ 7 1).lut = State.reset.lut := rfl

theorem witness_EncodingInterleavesWithDecoding :
    ([.decChar 0x6D, .decEnd, .decClear, .rst].all isDecoderOp) = true := by decide

/-- The clauses of DecCharResult: the Error state; the first and the last storing position; and, with CNT = 3, an
invalid token, a valid high token and a valid low token. -/
theorem witness_DecCharResult :
    (decoder 0 3 ⟨0, 0, 0, 0⟩ 0 3).err ≠ 0 ∧
    ((decoder 0 0 ⟨0, 0, 0, 0⟩ 0 0).err = 0 ∧ (decoder 0 0 ⟨0, 0, 0, 0⟩ 0 0).cnt ≠ 3) ∧
    ((decoder 0 2 ⟨0, 0, 0, 0⟩ 0 0).err = 0 ∧ (decoder 0 2 ⟨0, 0, 0, 0⟩ 0 0).cnt ≠ 3) ∧
    ((decoder 0 3 ⟨0x6D, 0x65, 0x6F, 0⟩ 0 0).err = 0 ∧ (decoder 0 3 ⟨0x6D, 0x65, 0x6F, 0⟩ 0 0).cnt = 3) ∧
    (classify Config.letters (0x6D#8 ++ 0x65#8 ++ 0x6F#8 ++ 0x78#8)).valid = false ∧
    (classify Config.letters (0x6D#8 ++ 0x65#8 ++ 0x6F#8 ++ 0x57#8)).valid = true ∧
    (decoder 0 3 ⟨0x6D, 0x65, 0x6F, 0⟩ 0 0).phase = 0 ∧ (decoder 1 3 ⟨0x6D, 0x65, 0x6F, 0⟩ 0 0).phase = 1 := by decide

theorem witness_DecEndResult :
    (decoder 0 0 ⟨0, 0, 0, 0⟩ 0 1).err ≠ 0 ∧
    ((decoder 1 1 ⟨0, 0, 0, 0⟩ 0 0).err = 0 ∧ (decoder 1 1 ⟨0, 0, 0, 0⟩ 0 0).cnt ≠ 0) ∧
    ((decoder 1 0 ⟨0, 0, 0, 0⟩ 0 0).err = 0 ∧ (decoder 1 0 ⟨0, 0, 0, 0⟩ 0 0).cnt = 0 ∧
      (decoder 1 0 ⟨0, 0, 0, 0⟩ 0 0).phase = 1) ∧
    ((decoder 0 0 ⟨0, 0, 0, 0⟩ 0 0).err = 0 ∧ (decoder 0 0 ⟨0, 0, 0, 0⟩ 0 0).cnt = 0 ∧
      (decoder 0 0 ⟨0, 0, 0, 0⟩ 0 0).phase = 0) := by decide

theorem witness_SuccessfulEndLeavesEveryRegister :
    ∃ t, exec .decEnd (decoder 0 0 ⟨0x6D, 0x65, 0x6F, 0x77⟩ 4 0) = .next t ∧ t.out.endOk = true := ⟨_, rfl, by decide⟩

theorem witness_CompletedTokenMovesTheDecoderState :
    (decoder 1 3 ⟨0x6D, 0x65, 0x6F, 0⟩ 4 0).err = 0 ∧ (decoder 1 3 ⟨0x6D, 0x65, 0x6F, 0⟩ 4 0).cnt = 3 ∧
    tokenValid Config.letters (0x6D#8 ++ 0x65#8 ++ 0x6F#8 ++ 0x57#8) = true ∧
    tokenValid Config.letters (0x6D#8 ++ 0x65#8 ++ 0x6F#8 ++ 0x58#8) = false ∧
    decoderState (decoder 1 3 ⟨0x6D, 0x65, 0x6F, 0⟩ 4 0) = .expectLowToken ∧
    decoderState (decoder 0 3 ⟨0x6D, 0x65, 0x6F, 0⟩ 4 0) = .expectHighToken := by decide

theorem witness_StreamPositionAdvancesByOne :
    (∃ t, exec (.decChar 0x77) (decoder 1 3 ⟨0x6D, 0x65, 0x6F, 0⟩ 4 0) = .next t ∧ t.err = 0) ∧
    (∃ t, exec .decEnd (decoder 1 3 ⟨0x6D, 0x65, 0x6F, 0⟩ 4 0) = .next t) := ⟨⟨_, rfl, by decide⟩, ⟨_, rfl⟩⟩

/-- For RegistersCountTheStream and FreshStreamNeedsNoClear. -/
theorem witness_streamStart : streamStart (decoder 0 0 ⟨0x6D, 0x65, 0x6F, 0x77⟩ 4 0) := by decide

/-- RegistersCountTheStream with a pending high nibble. -/
theorem witness_RegistersCountTheStream :
    (nextState (runOps (decStr [0x6D, 0x45, 0x6F, 0x77]) State.reset)).map (fun t => (t.err, t.phase)) = some (0, 1) := by
  decide

theorem witness_StreamLengthDecidesTheError :
    allTokensValid Config.letters [0x6D, 0x45, 0x6F, 0x77, 0x58] = true := by decide

theorem witness_HiddenRegistersAreNotObserved :
    AgreeOutside (issued [.cmd 0x277]) { issued [.cmd 0x277] with hi := 9, tbuf := ⟨1, 2, 3, 4⟩ } ∧
    ∃ t, step (issued [.cmd 0x277]) = .next t :=
  ⟨⟨rfl, rfl, rfl, rfl, rfl, rfl, rfl, rfl, rfl, rfl, fun _ p h => absurd h (Nat.not_lt_zero p.val), by decide⟩, ⟨_, rfl⟩⟩

theorem witness_EmittedOutputStays :
    (decoder 1 3 ⟨0x6D, 0x65, 0x6F, 0⟩ 4 1).err ≠ 0 ∧
    (∀ i ∈ [Instr.decChar 0x77, .encByte 0, .decEnd, .split 0], isClearing i = false) ∧
    ∃ t, runOps [.decChar 0x77, .encByte 0, .decEnd, .split 0] (decoder 1 3 ⟨0x6D, 0x65, 0x6F, 0⟩ 4 1) = .next t :=
  ⟨by decide, by decide, ⟨_, rfl⟩⟩

theorem witness_ErrorStateIgnoresTheStream : (decoder 1 0 ⟨0x6D, 0x65, 0x6F, 0x77⟩ 0 3).err ≠ 0 := by decide

theorem witness_OnlyClearAndResetLeaveTheErrorState :
    (decoder 1 2 ⟨1, 2, 3, 4⟩ 7 2).err ≠ 0 ∧ isClearing (.decChar 0x6D) = false ∧
    (∃ t, exec (.decChar 0x6D) (decoder 1 2 ⟨1, 2, 3, 4⟩ 7 2) = .next t) ∧ isClearing .decClear = true ∧
    isClearing .rst = true := ⟨by decide, by decide, ⟨_, rfl⟩, by decide, by decide⟩

theorem witness_RaisingAnErrorWritesErrOnly :
    (∃ t, exec (.decChar 0x20) (decoder 0 3 ⟨0x6D, 0x65, 0x6F, 0⟩ 4 0) = .next t ∧ t.err ≠ 0) ∧
    (∃ t, exec .decEnd (decoder 1 0 ⟨0x6D, 0x65, 0x6F, 0x77⟩ 4 0) = .next t ∧ t.err ≠ 0) :=
  ⟨⟨_, rfl, by decide⟩, ⟨_, rfl, by decide⟩⟩

theorem witness_LettersAreFixed : ∃ t, core.run 1 (issued [.cls 0x6D656F77]) = .next t := ⟨_, rfl⟩

/-- For ResponsesAndOutputStreams and UndrivenOutputsAreCleared. -/
theorem witness_ResponsesAndOutputStreams :
    ([.tokenOf 0xF, .classify 0, .split 0xFF, .join 0 0xF].all isUnitOp) = true ∧
    (∀ i ∈ [Instr.encByte 0xFF, .decChar 0x77, .decEnd, .decClear], isUnitOp i = false ∧ i ≠ .rst) ∧
    (nextState (exec (.decChar 0x77) (decoder 0 0 ⟨0, 0, 0, 0⟩ 0 0))).map (fun t => t.out.byteValid) = some false := by
  decide

theorem witness_LutIsNeverWritten : ∃ t, core.run 2 (issued [.cmd 0x1A5, .rst]) = .next t := ⟨_, rfl⟩

/-- A state of the invariant with a pending high nibble and an operation issued, and its next state. -/
theorem witness_StepKeepsTheInvariant :
    let s : State := { decoder 1 0 ⟨0x6D, 0x45, 0x6F, 0x77⟩ 4 0 with input := [.cmd 0x300] }
    Inv s ∧ ∃ t, step s = .next t :=
  ⟨⟨by decide, romContents_wf _, by decide, by decide, by decide, by decide, by decide, by decide, by decide, ⟨[], rfl⟩⟩, ⟨_, rfl⟩⟩

end Sys2Proof.Tests
end

/-! # The family `10_state`: the LUT, the status outputs and the reset values

What a single operation leaves of the LUT is read off `exec_next_cases`; that a run keeps whatever every operation keeps
is proved once, in `run_keeps_of_exec_keeps`. -/

namespace Sys2Proof.Machine

/-! ## Each operation answers a next state -/

/-- Every operation answers a next state: no arm of `exec` faults or refuses. -/
theorem exec_completes (i : Instr) (s : State) : ∃ t, exec i s = .next t := by
  cases i <;> exact ⟨_, rfl⟩

/-- The two clearing operations have one meaning (R102, R129). -/
theorem exec_of_isClearing {i : Instr} (h : isClearing i = true) (s : State) :
    exec i s = .next (clearDecoder (beginStep s)) := by
  obtain rfl | rfl : i = .decClear ∨ i = .rst := by simpa [isClearing] using h
  · rfl
  · rfl

/-! ## What every operation keeps, every run keeps -/

/-- A run of `k + 1` steps of a machine that answers next is one step and a run of `k` steps, both of which answer
next. -/
theorem run_succ_next {M : Host.Core} {k : Nat} {s t : M.State} (h : M.run (k + 1) s = .next t) :
    ∃ u, M.step s = .next u ∧ M.run k u = .next t := by
  rw [Host.Core.run] at h
  cases hs : M.step s with
  | next u => exact ⟨u, rfl, by simpa only [hs] using h⟩
  | fault r => simp [hs] at h
  | refused r => simp [hs] at h

section keeps
variable {α : Type} {f : State → α}

/-- What no operation changes, and what does not depend on the operations pending, no step changes. -/
theorem step_keeps_of_exec_keeps (hexec : ∀ i s t, exec i s = .next t → f t = f s)
    (hinput : ∀ s rest, f { s with input := rest } = f s) {s t : State} (h : step s = .next t) : f t = f s := by
  obtain ⟨-, rfl⟩ | ⟨p, rest, i, -, -, hi⟩ := step_next_cases h
  · rfl
  · exact (hexec i _ t hi).trans (hinput s rest)

/-- What no operation changes, and what does not depend on the operations pending, no run changes. -/
theorem run_keeps_of_exec_keeps (hexec : ∀ i s t, exec i s = .next t → f t = f s)
    (hinput : ∀ s rest, f { s with input := rest } = f s) {k : Nat} {s t : State} (h : core.run k s = .next t) :
    f t = f s := by
  induction k generalizing s with
  | zero => cases h; rfl
  | succ k ih =>
    obtain ⟨u, hu, ht⟩ := run_succ_next h
    exact (ih ht).trans (step_keeps_of_exec_keeps hexec hinput hu)

end keeps

/-! ## The LUT -/

@[simp] theorem tokenStep_lut (w : TokenWord) (s : State) : (tokenStep w s).lut = s.lut := by
  obtain ⟨-, e⟩ | ⟨-, -, e⟩ | ⟨-, -, e⟩ := tokenStep_cases w s <;> simp [e]

@[simp] theorem acceptChar_lut (c : Byte) (s : State) : (acceptChar c s).lut = s.lut := by
  obtain ⟨-, e⟩ | ⟨-, e⟩ := acceptChar_cases c s <;> simp [e]

@[simp] theorem endCheck_lut (s : State) : (endCheck s).lut = s.lut := by
  obtain ⟨-, e⟩ | ⟨-, -, e⟩ | ⟨-, -, -, e⟩ | ⟨-, -, -, e⟩ := endCheck_cases s <;> simp [e]

/-- No operation writes the LUT (R31). -/
theorem exec_keeps_lut (i : Instr) (s t : State) (h : exec i s = .next t) : t.lut = s.lut := by
  obtain ⟨b, -, rfl⟩ | ⟨u, -, rfl⟩ | ⟨-, rfl⟩ | ⟨-, rfl⟩ | ⟨c, -, -, rfl⟩ | ⟨c, -, -, rfl⟩ := exec_next_cases h <;>
    simp

/-- No run writes the LUT (R31). -/
theorem run_keeps_lut {k : Nat} {s t : State} (h : core.run k s = .next t) : t.lut = s.lut :=
  run_keeps_of_exec_keeps (f := State.lut) exec_keeps_lut (fun _ _ => rfl) h

/-- Settles O48: the meanings of the operations keep the field `lut`, a step is such a meaning or changes nothing, and
a run is a chain of steps. -/
theorem lutIsNeverWritten : Obligations.LutIsNeverWritten := by
  refine ⟨fun i s => ?_, fun k s t h => lutRead_congr (run_keeps_lut h)⟩
  obtain ⟨t, ht⟩ := exec_completes i s
  exact ⟨t, ht, lutRead_congr (exec_keeps_lut i s t ht)⟩

/-! ## The status outputs -/

section status
variable (s : State)

/-- ERR is bits 4:3 of `status_o` (R28). -/
@[simp] theorem statusO_err : (statusO s).extractLsb' 3 2 = s.err := by
  rw [statusO, BitVec.append_assoc]
  exact BitVec.extractLsb'_append_eq_left

/-- PHASE is bit 2 of `status_o` (R28). -/
@[simp] theorem statusO_phase : (statusO s).extractLsb' 2 1 = s.phase := by
  rw [statusO, BitVec.extractLsb'_append_eq_of_le (Nat.le_refl 2)]
  exact BitVec.extractLsb'_append_eq_right

/-- CNT is bits 1:0 of `status_o` (R28). -/
@[simp] theorem statusO_cnt : (statusO s).extractLsb' 0 2 = s.cnt :=
  BitVec.extractLsb'_append_eq_right

end status

/-- `status_o` is a function of ERR, PHASE and CNT alone (R28). -/
theorem statusO_congr {s t : State} (herr : t.err = s.err) (hphase : t.phase = s.phase) (hcnt : t.cnt = s.cnt) :
    statusO t = statusO s := by
  simp only [statusO, herr, hphase, hcnt]

/-- Settles O49: each field of `status_o` is a slice of the concatenation that drives it. -/
theorem statusOutputs : Obligations.StatusOutputs := fun s _ _ =>
  ⟨statusO_err s, statusO_phase s, statusO_cnt s, rfl, statusO_congr rfl rfl rfl, rfl⟩

/-! ## The reset values -/

/-- Clearing the decoder gives the five registers of R18 the values they have at reset (R33). -/
theorem sameDecoder_reset_clearDecoder (s : State) : sameDecoder State.reset (clearDecoder s) :=
  ⟨rfl, rfl, rfl, rfl, rfl⟩

/-- At reset the LUT holds the token of each nibble (R31, R84). -/
theorem lutRead_resetWith (L : Letters) (h : L.wf = true) (n : Nibble) :
    lutRead (State.resetWith L h) n = caseEncode L n :=
  lutRead_of_wf (resetWith_memory_wf L h) n

/-- Settles O51: RST and DEC_CLEAR both clear the decoder, and no operation writes the LUT that the block is built
with. -/
theorem resetValues : Obligations.ResetValues := by
  refine ⟨fun i s hi => ?_, fun L h => ⟨rfl, rfl, rfl, rfl, rfl, lutRead_resetWith L h⟩⟩
  have hclear : isClearing i = true := by simpa [isClearing] using hi.symm
  have ht := exec_of_isClearing hclear s
  exact ⟨_, ht, sameDecoder_reset_clearDecoder _, lutRead_congr (exec_keeps_lut i s _ ht)⟩

end Sys2Proof.Machine

/-! # The family `20_memory`: unit evaluations

A unit evaluation drives a value on its port and nothing else, and that value is a function of LETTERS and the LUT
(`exec_unitOp`). Purity and idempotence follow from what `driveUnit` and `beginStep` leave unchanged. -/

namespace Sys2Proof.Machine

/-! ## What each unit port shows -/

section meanings
variable (s : State)

/-- TOKEN_OF shows the LUT entry of its nibble (R85). -/
theorem exec_tokenOf (n : Nibble) : exec (.tokenOf n) s = .next (driveUnit (.token (lutRead s n)) (beginStep s)) := rfl

/-- CLASSIFY shows the classifier's answer for the letters of the block (R89). -/
theorem exec_classify (w : TokenWord) :
    exec (.classify w) s =
      .next (driveUnit (.classified (classify s.letters w).valid (classify s.letters w).nib) (beginStep s)) := rfl

/-- SPLIT shows the two nibbles of its byte (R79). -/
theorem exec_split (b : Byte) :
    exec (.split b) s = .next (driveUnit (.nibbles (hiNibble b) (loNibble b)) (beginStep s)) := rfl

/-- JOIN shows its two nibbles joined (R80). -/
theorem exec_join (hi lo : Nibble) :
    exec (.join hi lo) s = .next (driveUnit (.byte (joinNibbles hi lo)) (beginStep s)) := rfl

end meanings

/-- A unit evaluation only drives its port, and with one value in all states of the same LETTERS and LUT: TOKEN_OF
reads the LUT, CLASSIFY reads LETTERS, SPLIT and JOIN read neither (R48). -/
theorem exec_unitOp {i : Instr} (hi : isUnitOp i = true) (s : State) :
    ∃ u, ∀ s' : State, s'.letters = s.letters → s'.lut = s.lut → exec i s' = .next (driveUnit u (beginStep s')) := by
  cases i with
  | tokenOf n => exact ⟨.token (lutRead s n), fun s' _ hlut => by rw [exec_tokenOf, lutRead_congr hlut]⟩
  | classify w =>
    exact ⟨.classified (classify s.letters w).valid (classify s.letters w).nib,
      fun s' hletters _ => by rw [exec_classify, hletters]⟩
  | split b => exact ⟨.nibbles (hiNibble b) (loNibble b), fun s' _ _ => exec_split s' b⟩
  | join h l => exact ⟨.byte (joinNibbles h l), fun s' _ _ => exec_join s' h l⟩
  | encByte _ | decChar _ | decEnd | decClear | rst => cases hi

/-! ## What driving a unit port leaves unchanged -/

section driving
variable (u : UnitOut) (s : State)

/-- Driving the same value in two steps running leaves what the first of them left. -/
theorem driveUnit_beginStep_idem :
    driveUnit u (beginStep (driveUnit u (beginStep s))) = driveUnit u (beginStep s) := rfl

/-- Driving a unit port writes no decoder register. -/
theorem sameDecoder_driveUnit_beginStep : sameDecoder s (driveUnit u (beginStep s)) := ⟨rfl, rfl, rfl, rfl, rfl⟩

end driving

/-- Settles O24: the value `u` that the evaluation drives in `s` is the one it drives in the state after it and in
every state with the same LETTERS and LUT. -/
theorem unitEvaluationsArePure : Obligations.UnitEvaluationsArePure := by
  intro i s s' hi hletters hlut
  obtain ⟨u, hu⟩ := exec_unitOp hi s
  have hs := hu s rfl rfl
  have hagain : exec i (driveUnit u (beginStep s)) = .next (driveUnit u (beginStep s)) := by
    rw [hu _ (by simp) (by simp), driveUnit_beginStep_idem]
  have hs' := hu s' hletters hlut
  exact ⟨_, _, hs, hagain, hs', by simp, sameDecoder_driveUnit_beginStep u s, lutRead_congr (by simp), by simp, by simp⟩

end Sys2Proof.Machine

/-! # The family `30_encoding`: the command words, the responses and the output streams

A command word is its two fields (R62), so the masks of the opcode table and the reserved words are read off `opField`
and `dataField`: one equation per answer of the decoder, and `fields_of_decode_instr` for the way back. What an operation
shows on its response port and what it adds to the output streams is one relation, `StreamsFollow`, proved command by
command. -/

namespace Sys2Proof

/-! ## The fields and the masks of a command word -/

section word
variable (w : CommandWord)

/-- A command word is determined by its two fields (R62). -/
theorem commandWord_eq_append_iff (op : BitVec 4) (data : Byte) :
    w = op ++ data ↔ opField w = op ∧ dataField w = data := by
  constructor
  · rintro rfl
    exact ⟨opField_append op data, dataField_append op data⟩
  · rintro ⟨rfl, rfl⟩
    exact (opField_append_dataField w).symm

/-- The mask 0xF00 of ENC_BYTE and DEC_CHAR keeps OP and drops DATA (R63). -/
theorem and_opMask : w &&& 0xF00#12 = opField w ++ 0x00#8 := by
  calc w &&& 0xF00#12
    _ = (opField w ++ dataField w) &&& (0xF#4 ++ 0x00#8) := by rw [opField_append_dataField]; rfl
    _ = (opField w &&& BitVec.allOnes 4) ++ (dataField w &&& 0x00#8) := BitVec.and_append
    _ = opField w ++ 0x00#8 := by rw [BitVec.and_allOnes, BitVec.and_zero]

/-- A match under the mask 0xF00 is an equation of OP (R63). -/
theorem and_opMask_eq_iff (op : BitVec 4) : w &&& 0xF00#12 = op ++ 0x00#8 ↔ opField w = op := by
  rw [and_opMask, commandWord_eq_append_iff, opField_append, dataField_append]
  exact and_iff_left rfl

/-- The mask 0xFFF of DEC_END and DEC_CLEAR drops nothing, so a match under it fixes OP and DATA (R63). -/
theorem and_fullMask_eq_iff (op : BitVec 4) (data : Byte) :
    w &&& 0xFFF#12 = op ++ data ↔ opField w = op ∧ dataField w = data := by
  rw [← commandWord_eq_append_iff, show 0xFFF#12 = BitVec.allOnes 12 from rfl, BitVec.and_allOnes]

end word

/-! ## What the decoder answers for a command word -/

section decode
variable {w : CommandWord}

theorem decode_encByte (h : opField w = 0x1#4) : decode (.cmd w) = .instr (.encByte (dataField w)) := by
  simp [decode, decodeCommand, h]

theorem decode_decChar (h : opField w = 0x2#4) : decode (.cmd w) = .instr (.decChar (dataField w)) := by
  simp [decode, decodeCommand, h]

theorem decode_decEnd (h : opField w = 0x3#4) (hd : dataField w = 0x00#8) : decode (.cmd w) = .instr .decEnd := by
  simp [decode, decodeCommand, h, hd]

theorem decode_decClear (h : opField w = 0x4#4) (hd : dataField w = 0x00#8) :
    decode (.cmd w) = .instr .decClear := by
  simp [decode, decodeCommand, h, hd]

/-- DEC_END and DEC_CLEAR take no operand (R68). -/
theorem decode_reservedData (h : opField w = 0x3#4 ∨ opField w = 0x4#4) (hd : dataField w ≠ 0x00#8) :
    decode (.cmd w) = .reject (.reservedData (opField w) (dataField w)) := by
  obtain h | h := h <;> simp [decode, decodeCommand, h, hd]

/-- An OP that is none of the four codes is reserved (R67). -/
theorem decode_reservedOpcode (h1 : opField w ≠ 0x1#4) (h2 : opField w ≠ 0x2#4) (h3 : opField w ≠ 0x3#4)
    (h4 : opField w ≠ 0x4#4) : decode (.cmd w) = .reject (.reservedOpcode (opField w)) := by
  simp [decode, decodeCommand, h1, h2, h3, h4]

/-- OP 0x0 and 0x5 to 0xF are none of the four codes (R67). -/
theorem opcode_unassigned :
    ∀ op : BitVec 4, op = 0x0#4 ∨ 5 ≤ op.toNat → op ≠ 0x1#4 ∧ op ≠ 0x2#4 ∧ op ≠ 0x3#4 ∧ op ≠ 0x4#4 := by decide

/-- A command word that decodes to an operation has one of the four codes, with no operand for the last two (R63,
R67, R68). -/
theorem fields_of_decode_instr {i : Instr} (h : decode (.cmd w) = .instr i) :
    opField w = 0x1#4 ∨ opField w = 0x2#4 ∨ (opField w = 0x3#4 ∧ dataField w = 0x00#8) ∨
      (opField w = 0x4#4 ∧ dataField w = 0x00#8) := by
  by_contra! hn
  obtain ⟨h1, h2, h3, h4⟩ := hn
  by_cases hop : opField w = 0x3#4 ∨ opField w = 0x4#4
  · have hd : dataField w ≠ 0x00#8 := hop.elim h3 h4
    cases h.symm.trans (decode_reservedData hop hd)
  · obtain ⟨h3, h4⟩ := not_or.mp hop
    cases h.symm.trans (decode_reservedOpcode h1 h2 h3 h4)

end decode

/-- Settles O3: each match under its mask is an equation of the fields, for which the decoder's answer is known. -/
theorem commandOpcodeMap : Obligations.CommandOpcodeMap := fun w =>
  have encByte_iff := and_opMask_eq_iff w 0x1#4
  have decChar_iff := and_opMask_eq_iff w 0x2#4
  have decEnd_iff := and_fullMask_eq_iff w 0x3#4 0x00#8
  have decClear_iff := and_fullMask_eq_iff w 0x4#4 0x00#8
  ⟨fun h => decode_encByte (encByte_iff.mp h), fun h => decode_decChar (decChar_iff.mp h),
    fun h => decode_decEnd (decEnd_iff.mp h).1 (decEnd_iff.mp h).2,
    fun h => decode_decClear (decClear_iff.mp h).1 (decClear_iff.mp h).2,
    fun _ h => (fields_of_decode_instr h).imp encByte_iff.mpr
      (Or.imp decChar_iff.mpr (Or.imp decEnd_iff.mpr decClear_iff.mpr))⟩

end Sys2Proof

namespace Sys2Proof.Machine

/-! ## A step on the next input -/

section step
variable {s : State} {p : PortInput} {rest : List PortInput}

/-- A step on an input the decoder rejects is refused, with the decoder's reason (R67, R68). -/
theorem step_of_reject {e : DecodeError} (hin : s.input = p :: rest) (hd : decode p = .reject e) :
    step s = .refused (.reservedCommand e) := by
  simp only [step, fetch_cons hin, hd]

/-- A step on an input that decodes to an operation runs it. -/
theorem step_of_instr {i : Instr} (hin : s.input = p :: rest) (hd : decode p = .instr i) :
    step s = exec i { s with input := rest } := by
  simp only [step, fetch_cons hin, hd]

/-- A step on an input that decodes to an operation answers next. -/
theorem step_completes_of_instr {i : Instr} (hin : s.input = p :: rest) (hd : decode p = .instr i) :
    ∃ t, step s = .next t := by
  rw [step_of_instr hin hd]
  exact exec_completes i _

end step

/-- Settles O4: a step refuses what the decoder rejects and completes what it accepts. -/
theorem reservedCommandsAreRefused : Obligations.ReservedCommandsAreRefused := by
  intro s w rest hin
  refine ⟨fun hop => ?_, fun hop hd => step_of_reject hin (decode_reservedData hop hd), fun hop => ?_,
    fun hop hd => ?_⟩
  · obtain ⟨h1, h2, h3, h4⟩ := opcode_unassigned _ hop
    exact step_of_reject hin (decode_reservedOpcode h1 h2 h3 h4)
  · obtain h | h := hop
    · exact step_completes_of_instr hin (decode_encByte h)
    · exact step_completes_of_instr hin (decode_decChar h)
  · obtain h | h := hop
    · exact step_completes_of_instr hin (decode_decEnd h hd)
    · exact step_completes_of_instr hin (decode_decClear h hd)

/-! ## The responses of the commands -/

/-- Accepting a character emits no character. It shows no byte and emits none, or shows the byte it emits (R99,
R100). -/
theorem acceptChar_emits_cases (c : Byte) (s : State) :
    (acceptChar c s).charsOut = s.charsOut ∧
    (((acceptChar c s).out = s.out ∧ (acceptChar c s).bytesOut = s.bytesOut) ∨
     ∃ b, (acceptChar c s).out = { s.out with byte := b, byteValid := true } ∧
       (acceptChar c s).bytesOut = s.bytesOut ++ [b]) := by
  obtain ⟨-, e⟩ | ⟨-, -, e⟩ | ⟨-, -, -, e⟩ | ⟨-, -, -, e⟩ := acceptChar_token_cases c s <;> rw [e]
  · exact ⟨rfl, .inl ⟨rfl, rfl⟩⟩
  · exact ⟨rfl, .inl ⟨rfl, rfl⟩⟩
  · exact ⟨rfl, .inl ⟨rfl, rfl⟩⟩
  · exact ⟨rfl, .inr ⟨_, rfl, rfl⟩⟩

/-- DEC_CHAR emits no character. It shows no byte and emits none, or shows the byte it emits; no other response field is
driven (R64, R99, R116). -/
theorem exec_decChar_emits_cases (c : Byte) (s : State) :
    ∃ t, exec (.decChar c) s = .next t ∧ t.charsOut = s.charsOut ∧
      ((t.out = Response.zero ∧ t.bytesOut = s.bytesOut) ∨
       ∃ b, t.out = { Response.zero with byte := b, byteValid := true } ∧ t.bytesOut = s.bytesOut ++ [b]) := by
  by_cases he : s.err = 0#2
  · exact ⟨_, execDecChar_accept he, acceptChar_emits_cases c (beginStep s)⟩
  · exact ⟨_, execDecChar_error he, rfl, .inl ⟨rfl, rfl⟩⟩

section endCheck
variable (s : State)

/-- The length check of DEC_END writes nothing but ERR (R101, R114). -/
theorem endCheck_eq : endCheck s = { s with err := (endCheck s).err } := by
  obtain ⟨-, e⟩ | ⟨-, -, e⟩ | ⟨-, -, -, e⟩ | ⟨-, -, -, e⟩ := endCheck_cases s <;> rw [e] <;> rfl

@[simp] theorem endCheck_out : (endCheck s).out = s.out := by rw [endCheck_eq]
@[simp] theorem endCheck_charsOut : (endCheck s).charsOut = s.charsOut := by rw [endCheck_eq]
@[simp] theorem endCheck_bytesOut : (endCheck s).bytesOut = s.bytesOut := by rw [endCheck_eq]

end endCheck

/-- DEC_END runs the length check and shows whether ERR is 0 after it (R101). -/
theorem exec_decEnd (s : State) :
    exec .decEnd s = .next (driveEndOk (endOkOf (endCheck (beginStep s))) (endCheck (beginStep s))) := rfl

/-- `out.end_ok` is 1 exactly when ERR is 0 (R64, R101). -/
theorem endOkOf_iff (s : State) : endOkOf s = true ↔ s.err = 0#2 := by simp [endOkOf]

/-! ## The output streams follow the responses -/

/-- The bytes a response shows: `out.byte` when `out.byte_valid` is 1 (R64). -/
def shownBytes (r : Response) : List Byte := if r.byteValid = true then [r.byte] else []

/-- The characters a response shows: those of `out.chars` when `out.chars_valid` is 1 (R64). -/
def shownChars (r : Response) : List Byte := if r.charsValid = true then charsOfWord r.chars else []

/-- The output streams grow from `s` to `t` by what the response of `t` shows (R64). -/
structure StreamsFollow (s t : State) : Prop where
  bytes : t.bytesOut = s.bytesOut ++ shownBytes t.out
  chars : t.charsOut = s.charsOut ++ shownChars t.out

/-- The stream characters of a 64-bit response are its bytes, the most significant first (R42, R64). -/
theorem charsOfWord_eq (w : EncodedWord) :
    charsOfWord w =
      [w.extractLsb' 56 8, w.extractLsb' 48 8, w.extractLsb' 40 8, w.extractLsb' 32 8,
       w.extractLsb' 24 8, w.extractLsb' 16 8, w.extractLsb' 8 8, w.extractLsb' 0 8] := rfl

/-- A step that shows neither a byte nor characters and emits neither. -/
theorem StreamsFollow.of_unchanged {s t : State} (hb : t.out.byteValid = false) (hc : t.out.charsValid = false)
    (hbytes : t.bytesOut = s.bytesOut) (hchars : t.charsOut = s.charsOut) : StreamsFollow s t :=
  ⟨by simp [shownBytes, hb, hbytes], by simp [shownChars, hc, hchars]⟩

/-- After every command the streams have grown by what its response shows (R64). -/
theorem streamsFollow_of_command {i : Instr} (hunit : isUnitOp i = false) (hrst : i ≠ .rst) (s : State) :
    ∃ t, exec i s = .next t ∧ StreamsFollow s t := by
  cases i with
  | encByte b => exact ⟨_, rfl, by simp [shownBytes], by simp [shownChars]⟩
  | decChar c =>
    obtain ⟨t, ht, hchars, ⟨hout, hbytes⟩ | ⟨b, hout, hbytes⟩⟩ := exec_decChar_emits_cases c s
    · exact ⟨t, ht, .of_unchanged (by simp [hout]) (by simp [hout]) hbytes hchars⟩
    · exact ⟨t, ht, by simp [shownBytes, hout, hbytes], by simp [shownChars, hout, hchars]⟩
  | decEnd => exact ⟨_, exec_decEnd s, .of_unchanged (by simp) (by simp) (by simp) (by simp)⟩
  | decClear => exact ⟨_, rfl, .of_unchanged rfl rfl rfl rfl⟩
  | rst => exact absurd rfl hrst
  | tokenOf _ | classify _ | split _ | join _ _ => cases hunit

/-- A unit evaluation or RST emits nothing (R64, R129). -/
theorem streams_unchanged_of_not_command {i : Instr} (hi : isUnitOp i = true ∨ i = .rst) (s : State) :
    ∃ t, exec i s = .next t ∧ t.bytesOut = s.bytesOut ∧ t.charsOut = s.charsOut := by
  obtain hi | rfl := hi
  · obtain ⟨u, hu⟩ := exec_unitOp hi s
    exact ⟨_, hu s rfl rfl, rfl, rfl⟩
  · exact ⟨_, rfl, rfl, rfl⟩

/-- Settles O46: the response of each command is read off its meaning, and the streams follow the responses by
`streamsFollow_of_command`. -/
theorem responsesAndOutputStreams : Obligations.ResponsesAndOutputStreams := by
  refine ⟨fun b s => ⟨_, rfl, rfl, rfl⟩, fun c s => ?decChar, fun s => ⟨_, exec_decEnd s, ?endOk, ?decEnd⟩,
    fun s => ⟨_, rfl, rfl⟩, fun i s hi => streams_unchanged_of_not_command hi s, fun i s hunit hrst => ?streams⟩
  case decChar =>
    obtain ⟨t, ht, -, ⟨hout, -⟩ | ⟨b, hout, -⟩⟩ := exec_decChar_emits_cases c s
    · exact ⟨t, ht, fun _ => by rw [hout]; rfl, by rw [hout]⟩
    · exact ⟨t, ht, fun h => by simp [hout] at h, by rw [hout]⟩
  case endOk => exact endOkOf_iff _
  case decEnd => rw [driveEndOk_out, endCheck_out, beginStep_out]
  case streams =>
    obtain ⟨t, ht, hstreams⟩ := streamsFollow_of_command hunit hrst s
    have hchars := hstreams.chars
    rw [shownChars, charsOfWord_eq] at hchars
    exact ⟨t, ht, hstreams.bytes, hchars, statusO_err t, statusO_phase t, statusO_cnt t, rfl⟩

end Sys2Proof.Machine

/-! # The family `40_byte_mux`: SPLIT and JOIN

What SPLIT and JOIN drive is said by `exec_split` and `exec_join`; what driving a unit port leaves of the state is one
equation, `driveUnit_beginStep_eq`. -/

namespace Sys2Proof.Machine

/-- A byte on the split port is SPLIT's operand, whatever its value (R65, R79). -/
theorem decode_muxSplit (b : Byte) : decode (.muxSplit b) = .instr (.split b) := rfl

/-- A vector on the join port is JOIN of its two nibbles, `hhhh` and `llll` (R65). -/
theorem decode_muxJoin (v : Byte) : decode (.muxJoin v) = .instr (.join (hiNibble v) (loNibble v)) := rfl

/-- A unit evaluation writes the unit outputs and clears the response, and leaves everything else (R13, R48). -/
theorem driveUnit_beginStep_eq (u : UnitOut) (s : State) :
    driveUnit u (beginStep s) = { s with out := Response.zero, unitOut := u } := rfl

/-- Settles O13: the two nibbles `exec_split` drives are the two slices of the byte. -/
theorem splitResult : Obligations.SplitResult := fun b s =>
  ⟨decode_muxSplit b, _, exec_split s b, driveUnit_beginStep_eq (.nibbles (hiNibble b) (loNibble b)) s⟩

/-- Settles O14: the vector's two nibbles are the ones concatenated, and the byte `exec_join` drives is their shift and
or. -/
theorem joinResult : Obligations.JoinResult := by
  intro hi lo s
  have hdecode : decode (.muxJoin (hi ++ lo)) = .instr (.join hi lo) := by
    rw [decode_muxJoin, hiNibble_append, loNibble_append]
  exact ⟨hdecode, _, exec_join s hi lo, driveUnit_beginStep_eq (.byte (joinNibbles hi lo)) s⟩

end Sys2Proof.Machine

/-! # The family `41_lut_classifier`: the case encoder, the letter check, TOKEN_OF and CLASSIFY

A character matches a position when it is the position's letter in either case (`matchLetter_iff`). For a lower-case
letter that is one equation: the character with bit 5 set is the letter (`matchLetter_iff_setBit5`). So a character
matches the one position its lower-case form is the letter of. -/

namespace Sys2Proof.Machine

/-! ## The case encoder -/

/-- Each character of a nibble's token is the case encoder's character of its position (R57, R83). -/
@[simp] theorem tokenChar_caseEncode (L : Letters) (n : Nibble) (p : Pos) :
    tokenChar (caseEncode L n) p = caseChar L n p := by
  match p with
  | 0 => exact tokenChar_packToken_zero ..
  | 1 => exact tokenChar_packToken_one ..
  | 2 => exact tokenChar_packToken_two ..
  | 3 => exact tokenChar_packToken_three ..

/-- Settles O18: the slice is `tokenChar`, and the choice of case is `caseChar`. -/
theorem caseEncoderSpellsTheNibble : Obligations.CaseEncoderSpellsTheNibble := tokenChar_caseEncode

/-! ## The letters of a block -/

section letters
variable {L : Letters} (h : L.wf = true)
include h

/-- Every position's letter is lower case (R9, first constraint). -/
theorem letterAt_isLowerLetter (p : Pos) : isLowerLetter (letterAt L p) = true := by
  simp only [Letters.wf, Letters.allLower, Bool.and_eq_true] at h
  obtain ⟨⟨⟨⟨h0, h1⟩, h2⟩, h3⟩, -⟩ := h
  match p with
  | 0 => exact h0
  | 1 => exact h1
  | 2 => exact h2
  | 3 => exact h3

/-- Different positions have different letters (R9, second constraint). -/
theorem letterAt_injective : Function.Injective (letterAt L) := by
  simp only [Letters.wf, Letters.allDistinct, Bool.and_eq_true, decide_eq_true_eq] at h
  obtain ⟨-, ⟨⟨⟨⟨h01, h02⟩, h03⟩, h12⟩, h13⟩, h23⟩ := h
  have hnodup : [L.l0, L.l1, L.l2, L.l3].Nodup := by simp [h01, h02, h03, h12, h13, h23]
  exact List.nodup_ofFn.mp hnodup

end letters

/-! ## The letter check -/

/-- The letter check accepts a position's letter in either case (R87). -/
theorem matchLetter_iff (L : Letters) (p : Pos) (c : Byte) :
    matchLetter L p c = true ↔ c = letterAt L p ∨ c = up (letterAt L p) := by
  simp [matchLetter]

/-- Setting bit 5 keeps a lower-case letter and turns its upper-case form into it (R11). -/
theorem setBit5_of_isLowerLetter (l : Byte) :
    isLowerLetter l = true → l ||| 0x20#8 = l ∧ up l ||| 0x20#8 = l := by
  revert l; decide

/-- A character code is what setting bit 5 makes of it, or the upper-case form of that (R11). -/
theorem eq_setBit5_or_eq_up (c : Byte) : c = c ||| 0x20#8 ∨ c = up (c ||| 0x20#8) := by
  revert c; decide

/-- A code that is a lower-case letter once bit 5 is set is an ASCII letter (R11). -/
theorem letter_of_isLowerLetter_setBit5 (c : Byte) : isLowerLetter (c ||| 0x20#8) = true →
    (0x41 ≤ c.toNat ∧ c.toNat ≤ 0x5A) ∨ (0x61 ≤ c.toNat ∧ c.toNat ≤ 0x7A) := by
  revert c; decide

/-- A character matches a position exactly when, with bit 5 set, it is the position's letter. -/
theorem matchLetter_iff_setBit5 {L : Letters} (h : L.wf = true) (p : Pos) (c : Byte) :
    matchLetter L p c = true ↔ c ||| 0x20#8 = letterAt L p := by
  rw [matchLetter_iff]
  constructor
  · obtain ⟨hlower, hupper⟩ := setBit5_of_isLowerLetter _ (letterAt_isLowerLetter h p)
    rintro (rfl | rfl)
    · exact hlower
    · exact hupper
  · intro hc
    rw [← hc]
    exact eq_setBit5_or_eq_up c

/-- Settles O22: a character with bit 5 set is one code, which is the letter of at most one position and comes from a
letter only. -/
theorem letterIdentityCheck : Obligations.LetterIdentityCheck := by
  intro L h
  refine ⟨matchLetter_iff L, fun p q c hne hp => ?other, fun p c hupper hlower => ?noLetter⟩
  case other =>
    refine Bool.eq_false_iff.mpr fun hq => hne (letterAt_injective h ?_)
    rw [← (matchLetter_iff_setBit5 h p c).mp hp, ← (matchLetter_iff_setBit5 h q c).mp hq]
  case noLetter =>
    refine Bool.eq_false_iff.mpr fun hp => ?_
    have hletter : isLowerLetter (c ||| 0x20#8) = true :=
      (matchLetter_iff_setBit5 h p c).mp hp ▸ letterAt_isLowerLetter h p
    exact (letter_of_isLowerLetter_setBit5 c hletter).elim hupper hlower

/-! ## TOKEN_OF and CLASSIFY -/

/-- A nibble on the LUT port is TOKEN_OF's operand, whatever its value (R65, R85). -/
theorem decode_lut (n : Nibble) : decode (.lut n) = .instr (.tokenOf n) := rfl

/-- A token word on the classifier port is CLASSIFY's operand, whatever its value (R65, R89). -/
theorem decode_cls (w : TokenWord) : decode (.cls w) = .instr (.classify w) := rfl

/-- Settles O16: `exec_tokenOf` drives the LUT entry and nothing else. -/
theorem tokenOfResult : Obligations.TokenOfResult := fun n s =>
  ⟨decode_lut n, _, exec_tokenOf s n, driveUnit_beginStep_eq (.token (lutRead s n)) s⟩

/-- A token word is valid when each of its characters is its position's letter in either case (R55, R89). -/
theorem tokenValid_iff (L : Letters) (w : TokenWord) :
    tokenValid L w = true ↔
      (tokenChar w 0 = L.l0 ∨ tokenChar w 0 = up L.l0) ∧ (tokenChar w 1 = L.l1 ∨ tokenChar w 1 = up L.l1) ∧
      (tokenChar w 2 = L.l2 ∨ tokenChar w 2 = up L.l2) ∧ (tokenChar w 3 = L.l3 ∨ tokenChar w 3 = up L.l3) := by
  simp only [tokenValid, Bool.and_eq_true, matchLetter_iff, letterAt, and_assoc]

/-- Settles O21: the condition is `tokenValid`, and the four bits are the case pattern. -/
theorem classifyResult : Obligations.ClassifyResult := by
  intro w s L c0 c1 c2 c3
  refine ⟨decode_cls w, _, exec_classify s w, congrArg (fun u => driveUnit u (beginStep s)) ?_⟩
  obtain ⟨hvalid, hc⟩ | ⟨hvalid, hc⟩ := classify_cases s.letters w <;> rw [hc]
  · exact (if_pos ((tokenValid_iff s.letters w).mp hvalid)).symm
  · exact (if_neg fun hletters => Bool.eq_false_iff.mp hvalid ((tokenValid_iff s.letters w).mpr hletters)).symm

end Sys2Proof.Machine

/-! # The family `42_encoder`: ENC_BYTE

ENC_BYTE reads two LUT entries, side by side one word (`encodedWord`), and drives and emits that word (`exec_encByte`).
The word is all an ENC_BYTE takes from the state, and the LUT is all the word takes from it. -/

namespace Sys2Proof.Machine

/-! ## The word of an encoded byte -/

/-- The two tokens the LUT of `s` holds for a byte, the high nibble's first (R92). -/
def encodedWord (s : State) (b : Byte) : EncodedWord := packPair (lutRead s (hiNibble b)) (lutRead s (loNibble b))

/-- The word of an encoded byte is a function of the LUT (R93). -/
theorem encodedWord_congr {s t : State} (h : t.lut = s.lut) (b : Byte) : encodedWord t b = encodedWord s b := by
  rw [encodedWord, lutRead_congr h, lutRead_congr h, encodedWord]

/-! ## The command word and the meaning of ENC_BYTE -/

/-- The command word `0x1bb` is ENC_BYTE of `bb`, whatever `bb` is (R63, R92). -/
theorem decode_encByte_append (b : Byte) : decode (.cmd (0x1#4 ++ b)) = .instr (.encByte b) := by
  rw [decode_encByte (opField_append 0x1#4 b), dataField_append]

/-- ENC_BYTE drives the byte's word on the response and emits its characters (R92). -/
theorem exec_encByte (b : Byte) (s : State) :
    exec (.encByte b) s = .next (emitChars (encodedWord s b) (driveChars (encodedWord s b) (beginStep s))) := rfl

/-- Driving and emitting a word writes the response, the unit outputs and the character stream, and leaves everything
else (R13, R98). -/
theorem emitChars_driveChars_beginStep_eq (w : EncodedWord) (s : State) :
    emitChars w (driveChars w (beginStep s)) =
      { s with
        out := { Response.zero with chars := w, charsValid := true }
        unitOut := .none
        charsOut := s.charsOut ++ charsOfWord w } := rfl

/-- Settles O25: the word `exec_encByte` drives is the two entries concatenated, and the characters it emits are the
word's eight slices (`charsOfWord_eq`). -/
theorem encByteResult : Obligations.EncByteResult := by
  intro b s w
  refine ⟨decode_encByte_append b, _, exec_encByte b s, ?_⟩
  rw [emitChars_driveChars_beginStep_eq, charsOfWord_eq]
  rfl

/-- Settles O27: two states with one LUT encode the byte as one word, and what ENC_BYTE drives and emits is read off the
word. -/
theorem encByteDependsOnDataAndLutOnly : Obligations.EncByteDependsOnDataAndLutOnly := by
  intro b s s' hlut
  have hs' := exec_encByte b s'
  rw [encodedWord_congr hlut] at hs'
  refine ⟨_, _, charsOfWord (encodedWord s b), exec_encByte b s, hs', ?sameResponse, ?chars, ?chars'⟩
  case sameResponse => simp only [emitChars_out, driveChars_out, beginStep_out]
  case chars | chars' => simp only [emitChars_charsOut, driveChars_charsOut, beginStep_charsOut]

end Sys2Proof.Machine

/-! # The family `43_decoder`: DEC_CHAR, DEC_END and DEC_CLEAR

One equation per case of each command says the whole next state: the Error state, a storing position and the three
answers to a completed token for DEC_CHAR (R99, R100), and the four outcomes of the length check for DEC_END (R101). An
operation has one next state, so each clause of an obligation is the equation of its case. -/

namespace Sys2Proof.Machine

/-! ## The command words of the decoder -/

/-- The command word `0x2cc` is DEC_CHAR of `cc`, whatever `cc` is (R63, R99). -/
theorem decode_decChar_append (c : Byte) : decode (.cmd (0x2#4 ++ c)) = .instr (.decChar c) := by
  rw [decode_decChar (opField_append 0x2#4 c), dataField_append]

/-! ## TokenStep, case by case -/

section tokenStep
variable {w : TokenWord} {s : State}

/-- TokenStep on an invalid token sets ERR to BAD_LETTER (R100, R112). -/
theorem tokenStep_invalid (hv : (classify s.letters w).valid = false) :
    tokenStep w s = raiseFormatError .badLetter s := by
  simp [tokenStep, hv]

/-- TokenStep on a valid high token keeps its nibble in HI (R100). -/
theorem tokenStep_high (hv : (classify s.letters w).valid = true) (hp : s.phase = 0#1) :
    tokenStep w s = setPhase 1#1 (setHi (classify s.letters w).nib s) := by
  simp [tokenStep, hv, hp]

/-- TokenStep on a valid low token drives and emits the byte of HI and its nibble (R100). -/
theorem tokenStep_low (hv : (classify s.letters w).valid = true) (hp : s.phase = 1#1) :
    tokenStep w s =
      setPhase 0#1 (emitByte (s.hi ++ (classify s.letters w).nib) (driveByte (s.hi ++ (classify s.letters w).nib) s)) := by
  simp [tokenStep, hv, hp, joinNibbles_eq_append]

end tokenStep

/-! ## DEC_CHAR, case by case -/

section decChar
variable {c : Byte} {s : State}

/-- DEC_CHAR in the Error state only clears the response (R99, R116). -/
theorem exec_decChar_error (he : s.err ≠ 0#2) :
    exec (.decChar c) s = .next { s with out := Response.zero, unitOut := .none } :=
  execDecChar_error he

variable (he : s.err = 0#2)
include he

/-- DEC_CHAR before the last position of a token stores its character and counts it (R99). -/
theorem exec_decChar_store (hc : s.cnt ≠ 3#2) :
    exec (.decChar c) s = .next
      { s with
        out := Response.zero, unitOut := .none, tbuf := tbufWrite s.tbuf s.cnt.toFin c, cnt := s.cnt + 1#2 } := by
  obtain ⟨-, e⟩ | ⟨hc', -⟩ := acceptChar_cases c (beginStep s)
  · exact (execDecChar_accept he).trans (congrArg _ e)
  · exact absurd hc' hc

variable (hc : s.cnt = 3#2)
include hc

/-- DEC_CHAR at the last position of a token stores its character, wraps CNT and takes the TokenStep (R99). -/
theorem exec_decChar_complete :
    exec (.decChar c) s = .next (tokenStep (s.tbuf.c0 ++ s.tbuf.c1 ++ s.tbuf.c2 ++ c)
      { s with out := Response.zero, unitOut := .none, tbuf := { s.tbuf with c3 := c }, cnt := 0#2 }) := by
  have hslot : tbufWrite s.tbuf s.cnt.toFin c = { s.tbuf with c3 := c } := by rw [hc]; rfl
  obtain ⟨hc', -⟩ | ⟨-, e⟩ := acceptChar_cases c (beginStep s)
  · exact absurd hc hc'
  · simp only [storeChar, beginStep_tbuf, beginStep_cnt, hslot] at e
    exact (execDecChar_accept he).trans (congrArg _ e)

/-- A token with a wrong letter sets ERR to BAD_LETTER (R100). -/
theorem exec_decChar_invalid (hv : (classify s.letters (s.tbuf.c0 ++ s.tbuf.c1 ++ s.tbuf.c2 ++ c)).valid = false) :
    exec (.decChar c) s = .next
      { s with out := Response.zero, unitOut := .none, tbuf := { s.tbuf with c3 := c }, cnt := 0#2, err := 1#2 } := by
  rw [exec_decChar_complete he hc]
  exact congrArg _ (tokenStep_invalid hv)

variable (hv : (classify s.letters (s.tbuf.c0 ++ s.tbuf.c1 ++ s.tbuf.c2 ++ c)).valid = true)
include hv

/-- A valid high token leaves its nibble pending in HI (R100). -/
theorem exec_decChar_high (hp : s.phase = 0#1) :
    exec (.decChar c) s = .next
      { s with
        out := Response.zero, unitOut := .none, tbuf := { s.tbuf with c3 := c }, cnt := 0#2
        hi := (classify s.letters (s.tbuf.c0 ++ s.tbuf.c1 ++ s.tbuf.c2 ++ c)).nib, phase := 1#1 } := by
  rw [exec_decChar_complete he hc]
  exact congrArg _ (tokenStep_high hv hp)

/-- A valid low token completes the byte of the pending nibble, which is shown and emitted (R100). -/
theorem exec_decChar_low (hp : s.phase = 1#1) :
    exec (.decChar c) s = .next
      { s with
        out := { Response.zero with
          byteValid := true
          byte := s.hi ++ (classify s.letters (s.tbuf.c0 ++ s.tbuf.c1 ++ s.tbuf.c2 ++ c)).nib }
        unitOut := .none, tbuf := { s.tbuf with c3 := c }, cnt := 0#2, phase := 0#1
        bytesOut := s.bytesOut ++
          [s.hi ++ (classify s.letters (s.tbuf.c0 ++ s.tbuf.c1 ++ s.tbuf.c2 ++ c)).nib] } := by
  rw [exec_decChar_complete he hc]
  exact congrArg _ (tokenStep_low hv hp)

end decChar

/-- Settles O30: the hypotheses of each clause name the case of DEC_CHAR whose equation gives the next state. -/
theorem decCharResult : Obligations.DecCharResult := by
  intro c s
  obtain ⟨t, ht⟩ := exec_completes (.decChar c) s
  refine ⟨decode_decChar_append c, t, ht, fun he => ?error, fun he hc => ?store,
    fun he hc => ⟨fun hv => ?invalid, fun hv hp => ?high, fun hv hp => ?low⟩⟩
  case error => cases ht.symm.trans (exec_decChar_error he); rfl
  case store =>
    cases ht.symm.trans (exec_decChar_store he hc)
    exact ⟨tbufRead_tbufWrite_same _ c _, fun p hp => tbufRead_tbufWrite_other _ c _ p hp, rfl⟩
  case invalid => cases ht.symm.trans (exec_decChar_invalid he hc hv); rfl
  case high => cases ht.symm.trans (exec_decChar_high he hc hv hp); rfl
  case low => cases ht.symm.trans (exec_decChar_low he hc hv hp); rfl

/-! ## DEC_END, case by case -/

section decEnd
variable {s : State}

/-- The length check does nothing in the Error state (R101, R116). -/
theorem endCheck_error (he : s.err ≠ 0#2) : endCheck s = s := if_neg he

/-- The length check raises PARTIAL_TOKEN inside a token, in either phase (R101, R119). -/
theorem endCheck_partialToken (he : s.err = 0#2) (hc : s.cnt ≠ 0#2) :
    endCheck s = raiseFormatError .partialToken s := by
  simp [endCheck, he, hc]

/-- The length check raises ODD_TOKEN between the two tokens of a byte (R101). -/
theorem endCheck_oddToken (he : s.err = 0#2) (hc : s.cnt = 0#2) (hp : s.phase = 1#1) :
    endCheck s = raiseFormatError .oddToken s := by
  simp [endCheck, he, hc, hp]

/-- The length check passes at the start of a stream (R101, R103). -/
theorem endCheck_streamStart (h : streamStart s) : endCheck s = s := by
  obtain ⟨hp, hc, he⟩ := h
  simp [endCheck, he, hc, hp]

/-- The length check leaves no error at the start of a stream only (R101). -/
theorem endCheck_err_eq_zero_iff : (endCheck s).err = 0#2 ↔ streamStart s := by
  obtain ⟨he, e⟩ | ⟨-, hc, e⟩ | ⟨-, -, hp, e⟩ | ⟨he, hc, hp, e⟩ := endCheck_cases s
  · simp [e, he]
  · simp [e, hc, errorCode]
  · simp [e, hp, errorCode]
  · rw [e]
    exact iff_of_true he ⟨phase_ne_one hp, hc, he⟩

/-- DEC_END in the Error state changes nothing and answers `out.end_ok = 0` (R101, R116). -/
theorem exec_decEnd_error (he : s.err ≠ 0#2) :
    exec .decEnd s = .next { s with out := Response.zero, unitOut := .none } := by
  have hok : endOkOf (beginStep s) = false := decide_eq_false he
  rw [exec_decEnd, endCheck_error (s := beginStep s) he, hok]
  rfl

/-- DEC_END inside a token sets ERR to PARTIAL_TOKEN (R101, R112). -/
theorem exec_decEnd_partialToken (he : s.err = 0#2) (hc : s.cnt ≠ 0#2) :
    exec .decEnd s = .next { s with out := Response.zero, unitOut := .none, err := 2#2 } := by
  rw [exec_decEnd, endCheck_partialToken (s := beginStep s) he hc]
  rfl

/-- DEC_END between the two tokens of a byte sets ERR to ODD_TOKEN (R101, R112). -/
theorem exec_decEnd_oddToken (he : s.err = 0#2) (hc : s.cnt = 0#2) (hp : s.phase = 1#1) :
    exec .decEnd s = .next { s with out := Response.zero, unitOut := .none, err := 3#2 } := by
  rw [exec_decEnd, endCheck_oddToken (s := beginStep s) he hc hp]
  rfl

/-- DEC_END at the start of a stream answers `out.end_ok = 1` and writes no register (R101, R103). -/
theorem exec_decEnd_streamStart (h : streamStart s) :
    exec .decEnd s = .next { s with out := { Response.zero with endOk := true }, unitOut := .none } := by
  have ⟨_, _, he⟩ := h
  have hok : endOkOf (beginStep s) = true := (endOkOf_iff _).mpr he
  rw [exec_decEnd, endCheck_streamStart (s := beginStep s) h, hok]
  rfl

/-- DEC_END answers `out.end_ok = 1` at the start of a stream only (R101, R103). -/
theorem streamStart_of_endOk {t : State} (ht : exec .decEnd s = .next t) (hok : t.out.endOk = true) :
    streamStart s := by
  cases (exec_decEnd s).symm.trans ht
  have hstart : streamStart (beginStep s) := endCheck_err_eq_zero_iff.mp ((endOkOf_iff _).mp hok)
  exact hstart

end decEnd

/-- Settles O31: the hypotheses of each clause name the case of DEC_END whose equation gives the next state. -/
theorem decEndResult : Obligations.DecEndResult := by
  intro s fail
  obtain ⟨t, ht⟩ := exec_completes .decEnd s
  refine ⟨decode_decEnd rfl rfl, t, ht, fun he => ?error, fun he hc => ?partialToken, fun he hc hp => ?oddToken,
    fun he hc hp => ?streamStart⟩
  case error => cases ht.symm.trans (exec_decEnd_error he); rfl
  case partialToken => cases ht.symm.trans (exec_decEnd_partialToken he hc); rfl
  case oddToken => cases ht.symm.trans (exec_decEnd_oddToken he hc hp); rfl
  case streamStart => cases ht.symm.trans (exec_decEnd_streamStart ⟨hp, hc, he⟩); rfl

/-! ## DEC_CLEAR -/

/-- Clearing the decoder writes the decoder registers, the response and the unit outputs, and leaves everything else
(R102). -/
theorem clearDecoder_beginStep_eq (s : State) :
    clearDecoder (beginStep s) =
      { s with
        out := Response.zero, unitOut := .none, phase := 0#1, cnt := 0#2
        tbuf := ⟨0x00#8, 0x00#8, 0x00#8, 0x00#8⟩, hi := 0x0#4, err := 0#2 } := rfl

/-- Settles O32: DEC_CLEAR is one of the two clearing operations, and what clearing writes is one equation. -/
theorem decClearResult : Obligations.DecClearResult := fun s =>
  ⟨decode_decClear rfl rfl, _, exec_of_isClearing rfl s, clearDecoder_beginStep_eq s⟩

/-! ## A stream after a successful DEC_END -/

/-- A DEC_CHAR at the start of a stream puts its character in slot 0 and moves to position 1 (R99, R103). -/
theorem exec_decChar_streamStart {s : State} (h : streamStart s) (c : Byte) :
    ∃ u, exec (.decChar c) s = .next u ∧ u.cnt = 1#2 ∧ u.phase = 0#1 ∧ u.err = 0#2 ∧ tbufRead u.tbuf 0 = c := by
  obtain ⟨hp, hc, he⟩ := h
  have hstore := exec_decChar_store (c := c) he (by simp [hc])
  rw [hc] at hstore
  exact ⟨_, hstore, rfl, hp, he, tbufRead_tbufWrite_same s.tbuf c 0⟩

/-- Settles O33: such a DEC_END ran at the start of a stream and wrote no register, so it leaves the start of a
stream. -/
theorem successfulEndLeavesEveryRegister : Obligations.SuccessfulEndLeavesEveryRegister := by
  intro s t ht hok
  have hstart := streamStart_of_endOk ht hok
  have hlut := exec_keeps_lut .decEnd s t ht
  cases ht.symm.trans (exec_decEnd_streamStart hstart)
  exact ⟨⟨rfl, rfl, rfl, rfl, rfl⟩, hstart, lutRead_congr hlut, exec_decChar_streamStart hstart⟩

end Sys2Proof.Machine

/-! # The family `60_exceptions`: raising a FormatError, the Error state and leaving it

The five decoder registers change only under the operations of U_DEC and RST (`sameDecoder_of_not_decoderOp`). So in the
Error state, where DEC_CHAR and DEC_END change none either, nothing but a clearing operation changes them
(`sameDecoder_of_error`), and outside it only DEC_CHAR and DEC_END can raise (`raise_cases`). -/

namespace Sys2Proof.Machine

/-! ## The decoder registers -/

section registers
variable {i : Instr} {s t : State}

/-- ENC_BYTE and the unit evaluations write no decoder register (R18, R29). -/
theorem sameDecoder_of_not_decoderOp (hi : isDecoderOp i = false) (ht : exec i s = .next t) : sameDecoder s t := by
  cases i with
  | encByte b =>
    cases ht.symm.trans (exec_encByte b s)
    exact ⟨rfl, rfl, rfl, rfl, rfl⟩
  | tokenOf _ | classify _ | split _ | join _ _ =>
    cases ht
    exact sameDecoder_driveUnit_beginStep _ s
  | decChar _ | decEnd | decClear | rst => cases hi

/-- In the Error state only a clearing operation writes a decoder register (R116, R117). -/
theorem sameDecoder_of_error (he : s.err ≠ 0#2) (hclear : isClearing i = false) (ht : exec i s = .next t) :
    sameDecoder s t := by
  cases i with
  | decChar c =>
    cases ht.symm.trans (exec_decChar_error he)
    exact ⟨rfl, rfl, rfl, rfl, rfl⟩
  | decEnd =>
    cases ht.symm.trans (exec_decEnd_error he)
    exact ⟨rfl, rfl, rfl, rfl, rfl⟩
  | decClear | rst => cases hclear
  | encByte _ | tokenOf _ | classify _ | split _ | join _ _ => exact sameDecoder_of_not_decoderOp rfl ht

end registers

/-! ## The Error state -/

/-- Settles O44: any other operation leaves all five registers, and the meaning of the two is one equation. -/
theorem onlyClearAndResetLeaveTheErrorState : Obligations.OnlyClearAndResetLeaveTheErrorState := by
  refine ⟨fun i s t he ht hclear => ?keeps, fun i s hclear => ⟨_, exec_of_isClearing hclear s, rfl, rfl, rfl, rfl, rfl⟩⟩
  case keeps =>
    obtain ⟨-, -, -, -, herr⟩ := sameDecoder_of_error he hclear ht
    exact herr

/-- Settles O43: DEC_CHAR and DEC_END in the Error state are one equation each, and an ENC_BYTE depends on its DATA and
the LUT only, so not on ERR. -/
theorem errorStateIgnoresTheStream : Obligations.ErrorStateIgnoresTheStream := by
  refine fun s he => ⟨fun c => ?decChar, ?decEnd, fun b => ?encByte⟩
  case decChar =>
    have ht := exec_decChar_error (c := c) he
    exact ⟨_, ht, sameDecoder_of_error he rfl ht, rfl, rfl, rfl⟩
  case decEnd =>
    have ht := exec_decEnd_error he
    exact ⟨_, ht, sameDecoder_of_error he rfl ht, rfl, rfl, rfl⟩
  case encByte =>
    obtain ⟨t, u, cs, ht, hu, hout, hchars, hchars'⟩ := encByteDependsOnDataAndLutOnly b s { s with err := 0#2 } rfl
    have hvalid : t.out.charsValid = true := by
      cases ht.symm.trans (exec_encByte b s)
      rfl
    exact ⟨t, u, ht, hu, hout.symm, hchars.trans hchars'.symm, hvalid, sameDecoder_of_not_decoderOp rfl ht⟩

/-! ## Raising a FormatError -/

section raising
variable {i : Instr} {s t : State} (he : s.err = 0#2) (hraise : t.err ≠ 0#2)
include he hraise

/-- A DEC_CHAR that raises has completed an invalid token (R100, R114). -/
theorem decChar_raise {c : Byte} (ht : exec (.decChar c) s = .next t) :
    t = { s with
      out := Response.zero, unitOut := .none, tbuf := { s.tbuf with c3 := c }, cnt := 0#2, err := 1#2 } := by
  by_cases hc : s.cnt = 3#2
  · cases hv : (classify s.letters (s.tbuf.c0 ++ s.tbuf.c1 ++ s.tbuf.c2 ++ c)).valid with
    | false =>
      cases ht.symm.trans (exec_decChar_invalid he hc hv)
      rfl
    | true =>
      by_cases hp : s.phase = 0#1
      · cases ht.symm.trans (exec_decChar_high he hc hv hp)
        exact absurd he hraise
      · cases ht.symm.trans (exec_decChar_low he hc hv (phase_ne_zero hp))
        exact absurd he hraise
  · cases ht.symm.trans (exec_decChar_store he hc)
    exact absurd he hraise

/-- A DEC_END that raises writes PARTIAL_TOKEN or ODD_TOKEN to ERR and no other register (R101, R114). -/
theorem decEnd_raise (ht : exec .decEnd s = .next t) :
    ∃ code, (code = 2#2 ∨ code = 3#2) ∧ t = { s with out := Response.zero, unitOut := .none, err := code } := by
  by_cases hc : s.cnt = 0#2
  · by_cases hp : s.phase = 1#1
    · cases ht.symm.trans (exec_decEnd_oddToken he hc hp)
      exact ⟨3#2, .inr rfl, rfl⟩
    · cases ht.symm.trans (exec_decEnd_streamStart ⟨phase_ne_one hp, hc, he⟩)
      exact absurd he hraise
  · cases ht.symm.trans (exec_decEnd_partialToken he hc)
    exact ⟨2#2, .inl rfl, rfl⟩

/-- The two operations that can raise a FormatError, each with its whole next state (R113, R114). -/
theorem raise_cases (ht : exec i s = .next t) :
    (∃ c, i = .decChar c ∧ t = { s with
      out := Response.zero, unitOut := .none, tbuf := { s.tbuf with c3 := c }, cnt := 0#2, err := 1#2 }) ∨
    (i = .decEnd ∧ ∃ code, (code = 2#2 ∨ code = 3#2) ∧
      t = { s with out := Response.zero, unitOut := .none, err := code }) := by
  cases i with
  | decChar c => exact .inl ⟨c, rfl, decChar_raise he hraise ht⟩
  | decEnd => exact .inr ⟨rfl, decEnd_raise he hraise ht⟩
  | decClear | rst =>
    cases ht.symm.trans (exec_of_isClearing rfl s)
    exact absurd rfl hraise
  | encByte _ | tokenOf _ | classify _ | split _ | join _ _ =>
    obtain ⟨-, -, -, -, herr⟩ := sameDecoder_of_not_decoderOp rfl ht
    exact absurd (herr.trans he) hraise

end raising

/-- Settles O45: the next state of each of the two raising operations is one equation, and every clause is a field of
it. -/
theorem raisingAnErrorWritesErrOnly : Obligations.RaisingAnErrorWritesErrOnly := by
  intro i s t he ht hraise
  obtain ⟨c, hi, rfl⟩ | ⟨hi, code, hcode, rfl⟩ := raise_cases he hraise ht
  · exact ⟨rfl, rfl, rfl, rfl, rfl, rfl, .inl ⟨c, hi, rfl, rfl, rfl⟩⟩
  · exact ⟨rfl, rfl, rfl, rfl, rfl, rfl, .inr ⟨hi, hcode, rfl, rfl⟩⟩

end Sys2Proof.Machine

/-! # The family `70_reset_and_hazards`: RST

RST is one of the two clearing operations (`exec_of_isClearing`), and what clearing writes and leaves is one equation,
`clearDecoder_beginStep_eq`; only the input vector and `status_o` remain to be said. -/

namespace Sys2Proof.Machine

/-- The reset input at 1 is RST (R129). -/
theorem decode_rst : decode .rst = .instr .rst := rfl

/-- Once the decoder is cleared, `status_o` shows no error, EXPECT_HIGH and no character received (R28, R129). -/
@[simp] theorem statusO_clearDecoder (s : State) : statusO (clearDecoder s) = 0b00000#5 :=
  calc statusO (clearDecoder s)
    _ = 0#2 ++ 0#1 ++ 0#2 := by rw [statusO, clearDecoder_err, clearDecoder_phase, clearDecoder_cnt]
    _ = 0b00000#5 := by decide

/-- Settles O50: RST clears the decoder as DEC_CLEAR does, so its next state is the equation for clearing, and
`status_o` reads three of the registers cleared. -/
theorem rstResult : Obligations.RstResult := fun s =>
  ⟨decode_rst, _, exec_of_isClearing rfl s, statusO_clearDecoder (beginStep s), clearDecoder_beginStep_eq s⟩

end Sys2Proof.Machine

/-! # The family `other`: encoding and decoding of operations

An operation's vector decodes to it, and a vector that decodes to an operation is that operation's vector: for a command
word both are read off its two fields, for a vector of U_MUX off its two nibbles. -/

namespace Sys2Proof

/-- Decoding undoes encoding, for every operation with every operand (R63, R65). -/
@[simp] theorem decode_encode (i : Instr) : decode (encode i) = .instr i := by
  cases i with
  | encByte data => exact Machine.decode_encByte_append data
  | decChar data => exact Machine.decode_decChar_append data
  | decEnd => exact decode_decEnd rfl rfl
  | decClear => exact decode_decClear rfl rfl
  | tokenOf nib => exact Machine.decode_lut nib
  | classify tok => exact Machine.decode_cls tok
  | split byte => exact Machine.decode_muxSplit byte
  | join hi lo =>
    rw [encode, Machine.decode_muxJoin, Machine.hiNibble_append, Machine.loNibble_append]
  | rst => exact Machine.decode_rst

/-- Settles O1, operation by operation. -/
theorem encodedOperationDecodesToItself : Obligations.EncodedOperationDecodesToItself := decode_encode

/-- A command word that decodes to an operation is put together again by the operation's encoding (R62, R63, R68). -/
theorem encode_of_decode_cmd {w : CommandWord} {i : Instr} (h : decode (.cmd w) = .instr i) : encode i = .cmd w := by
  have hword : ∀ {op data}, opField w = op → dataField w = data → PortInput.cmd (op ++ data) = .cmd w :=
    fun hop hdata => congrArg _ ((commandWord_eq_append_iff w _ _).mpr ⟨hop, hdata⟩).symm
  obtain hop | hop | ⟨hop, hdata⟩ | ⟨hop, hdata⟩ := fields_of_decode_instr h
  · cases h.symm.trans (decode_encByte hop)
    exact hword hop rfl
  · cases h.symm.trans (decode_decChar hop)
    exact hword hop rfl
  · cases h.symm.trans (decode_decEnd hop hdata)
    exact hword hop hdata
  · cases h.symm.trans (decode_decClear hop hdata)
    exact hword hop hdata

/-- Settles O2: a command word is its two fields, a vector of the join port its two nibbles, and a vector of any other
port is the operand itself. -/
theorem decodedInputIsTheEncoding : Obligations.DecodedInputIsTheEncoding := by
  intro p i h
  cases p with
  | cmd w => exact encode_of_decode_cmd h
  | muxJoin v =>
    cases h
    exact congrArg PortInput.muxJoin (Machine.append_nibbles v)
  | lut v | cls v | muxSplit v | rst => cases h; rfl

/-! ## The reserved command words -/

section reserved
variable (w : CommandWord)

theorem opField_toNat : (opField w).toNat = w.toNat / 256 := by
  have hw := w.isLt
  simp only [opField, BitVec.extractLsb'_toNat, Nat.shiftRight_eq_div_pow]
  omega

theorem dataField_toNat : (dataField w).toNat = w.toNat % 256 := by
  simp [dataField, BitVec.extractLsb'_toNat]

/-- The decoder rejects exactly the words without one of the four codes, or with an operand for DEC_END or DEC_CLEAR
(R67, R68). -/
theorem decode_toOption_eq_none_iff :
    (decode (.cmd w)).toOption = none ↔
      ¬ (opField w = 0x1#4 ∨ opField w = 0x2#4 ∨ (opField w = 0x3#4 ∧ dataField w = 0x00#8) ∨
        (opField w = 0x4#4 ∧ dataField w = 0x00#8)) := by
  constructor
  · rintro hnone (hop | hop | ⟨hop, hdata⟩ | ⟨hop, hdata⟩)
    · simp [decode_encByte hop, Decoded.toOption] at hnone
    · simp [decode_decChar hop, Decoded.toOption] at hnone
    · simp [decode_decEnd hop hdata, Decoded.toOption] at hnone
    · simp [decode_decClear hop hdata, Decoded.toOption] at hnone
  · intro hfields
    cases hd : decode (.cmd w) with
    | instr i => exact absurd (fields_of_decode_instr hd) hfields
    | reject e => rfl

/-- The rejected words by number (R67, R68). -/
theorem decode_toOption_eq_none_iff_toNat :
    (decode (.cmd w)).toOption = none ↔
      w.toNat ≤ 0x0FF ∨ (0x301 ≤ w.toNat ∧ w.toNat ≤ 0x3FF) ∨ (0x401 ≤ w.toNat ∧ w.toNat ≤ 0x4FF) ∨
        0x500 ≤ w.toNat := by
  simp only [decode_toOption_eq_none_iff, ← BitVec.toNat_inj, opField_toNat, dataField_toNat, BitVec.toNat_ofNat]
  omega

/-- The check of WellFormed.lean refuses the same numbers. -/
theorem commandWord_wf_eq_false_iff :
    CommandWord.wf w = false ↔
      w.toNat ≤ 0x0FF ∨ (0x301 ≤ w.toNat ∧ w.toNat ≤ 0x3FF) ∨ (0x401 ≤ w.toNat ∧ w.toNat ≤ 0x4FF) ∨
        0x500 ≤ w.toNat := by
  simp only [CommandWord.wf, CommandWord.opAssigned, CommandWord.dataAllowed, Bool.and_eq_false_iff,
    Bool.not_eq_false', Bool.and_eq_true, decide_eq_false_iff_not, decide_eq_true_eq]
  omega

end reserved

/-- Settles O5: OP and DATA are quotient and remainder of the word by 256, so the rejected fields are intervals of
numbers. -/
theorem reservedWordRanges : Obligations.ReservedWordRanges := fun w =>
  ⟨decode_toOption_eq_none_iff_toNat w,
    (decode_toOption_eq_none_iff_toNat w).trans (commandWord_wf_eq_false_iff w).symm⟩

/-- Settles O6: each written word is an operation's encoding. -/
theorem writtenWordsDecode : Obligations.WrittenWordsDecode :=
  ⟨decode_encode (.encByte 0x48), decode_encode (.decChar 0x4D), decode_encode .decEnd, decode_encode .decClear,
    decode_encode (.tokenOf 4), decode_encode (.classify 0x6D456F77), decode_encode (.split 0xA5),
    decode_encode (.join 4 8), decode_encode .rst⟩

end Sys2Proof

/-! # The family `other`: the written form of operations

Reading a printed digit gives the digit, so reading a printed operand gives the operand. What follows an operation's
name in its own text is the operand; no other name stands at the front of that text. -/

namespace Sys2Proof.Machine

/-! ## Operands -/

@[simp] theorem readHexDigit_printHexDigit (n : Nibble) : readHexDigit (printHexDigit n) = some n := by
  revert n; decide

theorem readNibble_printNibble (n : Nibble) : readNibble (printNibble n) = some n :=
  readHexDigit_printHexDigit n

theorem readByte_printByte (b : Byte) : readByte (printByte b) = some b := by
  simp only [readByte, printByte, afterPrefix, if_true, readHexDigit_printHexDigit]
  exact congrArg some (append_nibbles b)

/-- A token word is its eight hexadecimal digits. -/
theorem append_digits (t : TokenWord) :
    t.extractLsb' 28 4 ++ t.extractLsb' 24 4 ++ t.extractLsb' 20 4 ++ t.extractLsb' 16 4 ++ t.extractLsb' 12 4
      ++ t.extractLsb' 8 4 ++ t.extractLsb' 4 4 ++ t.extractLsb' 0 4 = t := by
  iterate 7 rw [BitVec.extractLsb'_append_extractLsb'_eq_extractLsb' (by decide)]
  exact BitVec.extractLsb'_eq_self

theorem readWord_printWord (t : TokenWord) : readWord (printWord t) = some t := by
  simp only [readWord, printWord, afterPrefix, if_true, readHexDigit_printHexDigit]
  exact congrArg some (append_digits t)

/-- A printed byte is not read as a quoted character. -/
theorem readCharOperand_printByte (b : Byte) : readCharOperand (printByte b) = some b := readByte_printByte b

/-- A printed token word is not read as a quoted token. -/
theorem readTokenOperand_printWord (t : TokenWord) : readTokenOperand (printWord t) = some t := readWord_printWord t

theorem readJoinOperands_printNibbles (hi lo : Nibble) :
    readJoinOperands (printNibble hi ++ [',', ' '] ++ printNibble lo) = some (hi, lo) := by
  have hhi := readNibble_printNibble hi
  have hlo := readNibble_printNibble lo
  simp only [printNibble] at hhi hlo
  simp [readJoinOperands, printNibble, hhi, hlo]

/-! ## Names -/

@[simp] theorem afterPrefix_append (name cs : List Char) : afterPrefix name (name ++ cs) = some cs := by
  induction name with
  | nil => cases cs <;> rfl
  | cons c name ih => simp [afterPrefix, ih]

/-- An operation's name followed by its operand is read as the operation. -/
theorem readWith_append {α : Type} {name cs : List Char} {operand : List Char → Option α} {mk : α → Instr} {a : α}
    (h : operand cs = some a) : readWith name operand mk (name ++ cs) = some (mk a) := by
  simp [readWith, h]

/-- JOIN's operands follow its name as one text. -/
theorem printInstr_join (hi lo : Nibble) :
    printInstr (.join hi lo) = nameJoin ++ (printNibble hi ++ [',', ' '] ++ printNibble lo) := by
  simp only [printInstr, List.append_assoc]

/-- Settles O7: an operation's own reader gives the operand back (`readWith_append`); the readers before it find
another name, which compares letters of the two names alone and so computes. -/
theorem writtenSyntaxReadsBack : Obligations.WrittenSyntaxReadsBack := by
  intro i
  cases i with
  | encByte b => rw [printInstr, parseInstr, readWith_append (readByte_printByte b)]; rfl
  | decChar b => rw [printInstr, parseInstr, readWith_append (readCharOperand_printByte b)]; rfl
  | tokenOf n => rw [printInstr, parseInstr, readWith_append (readNibble_printNibble n)]; rfl
  | classify t => rw [printInstr, parseInstr, readWith_append (readTokenOperand_printWord t)]; rfl
  | split b => rw [printInstr, parseInstr, readWith_append (readByte_printByte b)]; rfl
  | join hi lo => rw [printInstr_join, parseInstr, readWith_append (readJoinOperands_printNibbles hi lo)]; rfl
  | decEnd | decClear | rst => decide

end Sys2Proof.Machine

/-! # The family `other`: steps and runs

A step runs what its first pending input decodes to. No operation reads the operations still pending, and none reads the
responses of the step before it, which `beginStep` clears; a decoder operation does not read the character stream
either. So these fields may be set before an operation or after it, to the same effect (`exec_setStreams`,
`exec_setInput`, `exec_beginStep`). -/

namespace Sys2Proof.Machine

/-! ## Fields that an operation does not read -/

/-- `s` with another character stream and other operations pending. -/
def setStreams (cs : List Byte) (ps : List PortInput) (s : State) : State := { s with charsOut := cs, input := ps }

theorem setStreams_self (s : State) : setStreams s.charsOut s.input s = s := rfl

section setStreams
variable (cs : List Byte) (ps : List PortInput)

theorem beginStep_setStreams (s : State) : beginStep (setStreams cs ps s) = setStreams cs ps (beginStep s) := rfl

theorem tokenStep_setStreams (w : TokenWord) (s : State) :
    tokenStep w (setStreams cs ps s) = setStreams cs ps (tokenStep w s) := by
  simp only [tokenStep, apply_ite (setStreams cs ps)]
  rfl

theorem acceptChar_setStreams (c : Byte) (s : State) :
    acceptChar c (setStreams cs ps s) = setStreams cs ps (acceptChar c s) := by
  simp only [acceptChar, apply_ite (setStreams cs ps), ← tokenStep_setStreams]
  rfl

theorem endCheck_setStreams (s : State) : endCheck (setStreams cs ps s) = setStreams cs ps (endCheck s) := by
  simp only [endCheck, apply_ite (setStreams cs ps)]
  rfl

/-- A decoder operation reads neither the character stream nor the operations pending. -/
theorem exec_setStreams {d : Instr} (hd : isDecoderOp d = true) {s v : State} (hv : exec d s = .next v) :
    exec d (setStreams cs ps s) = .next (setStreams cs ps v) := by
  cases d with
  | decChar c =>
    by_cases he : s.err = 0#2
    · cases hv.symm.trans (execDecChar_accept he)
      exact (execDecChar_accept (s := setStreams cs ps s) he).trans
        (congrArg _ (acceptChar_setStreams cs ps c (beginStep s)))
    · cases hv.symm.trans (execDecChar_error he)
      exact execDecChar_error (s := setStreams cs ps s) he
  | decEnd =>
    cases hv.symm.trans (exec_decEnd s)
    rw [exec_decEnd, beginStep_setStreams, endCheck_setStreams]
    rfl
  | decClear | rst => cases hv; rfl
  | encByte _ | tokenOf _ | classify _ | split _ | join _ _ => cases hd

end setStreams

/-- A decoder operation writes neither the character stream nor the operations pending. -/
theorem exec_decoderOp_keeps {d : Instr} (hd : isDecoderOp d = true) {s v : State} (hv : exec d s = .next v) :
    v.charsOut = s.charsOut ∧ v.input = s.input := by
  have h := exec_setStreams s.charsOut s.input hd hv
  rw [setStreams_self, hv, Host.Outcome.next.injEq] at h
  rw [h]
  exact ⟨rfl, rfl⟩

/-- No operation reads the operations pending. -/
theorem exec_setInput {i : Instr} {s t : State} (ps : List PortInput) (ht : exec i s = .next t) :
    exec i { s with input := ps } = .next { t with input := ps } := by
  cases hd : isDecoderOp i with
  | true =>
    obtain ⟨hchars, -⟩ := exec_decoderOp_keeps hd ht
    refine (exec_setStreams s.charsOut ps hd ht).trans ?_
    rw [setStreams, ← hchars]
  | false =>
    cases i with
    | encByte _ | tokenOf _ | classify _ | split _ | join _ _ => cases ht; rfl
    | decChar _ | decEnd | decClear | rst => cases hd

/-- No operation issues another. -/
theorem exec_keeps_input {i : Instr} {s t : State} (ht : exec i s = .next t) : t.input = s.input := by
  have h := exec_setInput s.input ht
  rw [show ({ s with input := s.input } : State) = s from rfl, ht, Host.Outcome.next.injEq] at h
  rw [h]

/-- An operation reads no response and no unit output of the step before it (R13). -/
theorem exec_beginStep (i : Instr) (s : State) : exec i (beginStep s) = exec i s := by
  cases i <;> rfl

/-! ## Steps and runs -/

/-- Settles O8. -/
theorem stepRunsTheDecodedOperation : Obligations.StepRunsTheDecodedOperation :=
  fun _ _ _ _ hin hd => step_of_instr hin hd

/-- A step with no operation pending changes nothing (log entry 2). -/
theorem step_of_input_nil {s : State} (h : s.input = []) : step s = .next s := by
  simp only [step, fetch_nil h]

/-- Settles O9. -/
theorem stepWithoutInputChangesNothing : Obligations.StepWithoutInputChangesNothing := fun _ h => step_of_input_nil h

/-- Settles O12. -/
theorem everyOperationCompletes : Obligations.EveryOperationCompletes := exec_completes

/-- A run goes on from the next state of its first step. -/
theorem run_succ_of_step {s t : State} (h : step s = .next t) (k : Nat) : core.run (k + 1) s = core.run k t := by
  have hcore : core.step s = .next t := h
  simp only [Host.Core.run, hcore]

/-- Settles O10, by induction on the list: a step takes the first encoding, and its operation leaves the others
pending. -/
theorem pendingOperationsRunInOrder : Obligations.PendingOperationsRunInOrder := by
  intro is
  induction is with
  | nil =>
    intro s hin
    rw [List.map_nil, ← hin]
    rfl
  | cons i is ih =>
    intro s hin
    obtain ⟨t, ht⟩ := exec_completes i s
    have hstep : step { s with input := (i :: is).map encode } = .next { t with input := is.map encode } :=
      (step_of_instr rfl (decode_encode i)).trans (exec_setInput (s := s) _ ht)
    rw [runOps_cons ht, ← ih t ((exec_keeps_input ht).trans hin)]
    exact run_succ_of_step hstep is.length

/-- A legal input decodes to an operation. -/
theorem decode_of_legalInput {p : PortInput} (h : legalInput p = true) : ∃ i, decode p = .instr i := by
  cases hd : decode p with
  | instr i => exact ⟨i, rfl⟩
  | reject e => simp [legalInput, hd, Decoded.toOption] at h

/-- A step on legal inputs answers next and leaves legal inputs. -/
theorem step_of_legalInput {s : State} (hlegal : ∀ p ∈ s.input, legalInput p = true) :
    ∃ t, step s = .next t ∧ ∀ p ∈ t.input, legalInput p = true := by
  cases hin : s.input with
  | nil => exact ⟨s, step_of_input_nil hin, hlegal⟩
  | cons p rest =>
    rw [hin, List.forall_mem_cons] at hlegal
    obtain ⟨hp, hrest⟩ := hlegal
    obtain ⟨i, hi⟩ := decode_of_legalInput hp
    obtain ⟨t, ht⟩ := exec_completes i { s with input := rest }
    exact ⟨t, (step_of_instr hin hi).trans ht, exec_keeps_input ht ▸ hrest⟩

/-- Settles O11, by induction on the number of steps. -/
theorem legalInputIsNeverRefused : Obligations.LegalInputIsNeverRefused := by
  intro k
  induction k with
  | zero => exact fun s _ => ⟨s, rfl⟩
  | succ k ih =>
    intro s hlegal
    obtain ⟨u, hu, hlegal'⟩ := step_of_legalInput hlegal
    obtain ⟨t, ht⟩ := ih u hlegal'
    exact ⟨t, (run_succ_of_step hu k).trans ht⟩

/-! ## LETTERS -/

@[simp] theorem tokenStep_letters (w : TokenWord) (s : State) : (tokenStep w s).letters = s.letters := by
  obtain ⟨-, e⟩ | ⟨-, -, e⟩ | ⟨-, -, e⟩ := tokenStep_cases w s <;> simp [e]

@[simp] theorem acceptChar_letters (c : Byte) (s : State) : (acceptChar c s).letters = s.letters := by
  obtain ⟨-, e⟩ | ⟨-, e⟩ := acceptChar_cases c s <;> simp [e]

@[simp] theorem endCheck_letters (s : State) : (endCheck s).letters = s.letters := by rw [endCheck_eq]

/-- No operation changes LETTERS (R35). -/
theorem exec_keeps_letters (i : Instr) (s t : State) (h : exec i s = .next t) : t.letters = s.letters := by
  obtain ⟨b, -, rfl⟩ | ⟨u, -, rfl⟩ | ⟨-, rfl⟩ | ⟨-, rfl⟩ | ⟨c, -, -, rfl⟩ | ⟨c, -, -, rfl⟩ := exec_next_cases h <;>
    simp

/-- The letters of a block can be read off the token of nibble 0x0, which is all lower case (R83). -/
theorem letterAt_eq_tokenChar (L : Letters) (p : Pos) : letterAt L p = tokenChar (caseEncode L 0x0#4) p := by
  rw [tokenChar_caseEncode, caseChar, BitVec.getLsbD_zero]
  rfl

/-- Blocks with different LETTERS have different LUTs (R83, R84). -/
theorem romContents_injective {L L' : Letters} (h : romContents L = romContents L') : L = L' := by
  have htoken : caseEncode L 0x0#4 = caseEncode L' 0x0#4 := by
    rw [← romContents_read, ← romContents_read, h]
  have hletter : ∀ p, letterAt L p = letterAt L' p := fun p => by
    rw [letterAt_eq_tokenChar, letterAt_eq_tokenChar, htoken]
  cases L
  cases L'
  exact Letters.mk.injEq .. ▸ ⟨hletter 0, hletter 1, hletter 2, hletter 3⟩

/-- Settles O54: no operation changes LETTERS, so no run does, and the LUT's first entry spells them. -/
theorem lettersAreFixed : Obligations.LettersAreFixed := by
  refine ⟨fun i s => ?_, fun k s t => run_keeps_of_exec_keeps (f := State.letters) exec_keeps_letters (fun _ _ => rfl),
    fun _ _ => romContents_injective, fun _ _ => rfl, rfl⟩
  obtain ⟨t, ht⟩ := exec_completes i s
  exact ⟨t, ht, exec_keeps_letters i s t ht⟩

end Sys2Proof.Machine

/-! # The family `other`: tokens, nibbles and the LUT

The case pattern of a nibble's token is the nibble, and the token of a valid word's case pattern is the word
(`casePattern_caseEncode`, `caseEncode_casePattern`). So the case encoder is a bijection onto the valid words, and the
classifier is its inverse. -/

namespace Sys2Proof.Machine

/-! ## The case encoder and the case pattern -/

/-- A word is valid when each of its positions matches (R55, R89). -/
theorem tokenValid_iff_forall (L : Letters) (t : TokenWord) :
    tokenValid L t = true ↔ ∀ p : Pos, matchLetter L p (tokenChar t p) = true := by
  simp only [tokenValid, Bool.and_eq_true, and_assoc]
  exact ⟨fun ⟨h0, h1, h2, h3⟩ p => match p with | 0 => h0 | 1 => h1 | 2 => h2 | 3 => h3,
    fun h => ⟨h 0, h 1, h 2, h 3⟩⟩

/-- The case encoder's characters match (R10, R87). -/
theorem matchLetter_caseChar (L : Letters) (n : Nibble) (p : Pos) : matchLetter L p (caseChar L n p) = true := by
  rw [matchLetter_iff, caseChar]
  split
  · exact .inr rfl
  · exact .inl rfl

/-- The token of a nibble is valid (R69). -/
@[simp] theorem tokenValid_caseEncode (L : Letters) (n : Nibble) : tokenValid L (caseEncode L n) = true :=
  (tokenValid_iff_forall L _).mpr fun p => by rw [tokenChar_caseEncode, matchLetter_caseChar]

/-- The case bit of the case encoder's character of position p is bit `3 - p` of the nibble (R83, R88). -/
theorem caseBit_caseChar (L : Letters) (n : Nibble) (p : Pos) :
    caseBit L p (caseChar L n p) = BitVec.ofBool (n.getLsbD (3 - p.val)) := by
  cases h : n.getLsbD (3 - p.val) <;> simp [caseBit, caseChar, h, (up_ne _).symm]

/-- A nibble is its four bits. -/
theorem ofBool_append_getLsbD :
    ∀ n : Nibble, BitVec.ofBool (n.getLsbD 3) ++ BitVec.ofBool (n.getLsbD 2) ++ BitVec.ofBool (n.getLsbD 1)
      ++ BitVec.ofBool (n.getLsbD 0) = n := by decide

/-- The case pattern of a nibble's token is the nibble (R83, R89). -/
@[simp] theorem casePattern_caseEncode (L : Letters) (n : Nibble) : casePattern L (caseEncode L n) = n := by
  simp only [casePattern, tokenChar_caseEncode, caseBit_caseChar]
  exact ofBool_append_getLsbD n

/-- Bit `3 - p` of four bits put together is the bit of position p. -/
theorem getLsbD_append_bits (b : Pos → BitVec 1) (p : Pos) :
    (b 0 ++ b 1 ++ b 2 ++ b 3 : Nibble).getLsbD (3 - p.val) = decide (b p = 1#1) := by
  have h : ∀ b0 b1 b2 b3 : BitVec 1, ∀ p : Pos,
      (b0 ++ b1 ++ b2 ++ b3 : Nibble).getLsbD (3 - p.val) = decide (![b0, b1, b2, b3] p = 1#1) := by decide
  rw [h]
  match p with
  | 0 | 1 | 2 | 3 => rfl

/-- A matching character is the case encoder's for any nibble with the character's case bit (R83, R88). -/
theorem caseChar_eq_of_matchLetter {L : Letters} {p : Pos} {c : Byte} {n : Nibble} (hc : matchLetter L p c = true)
    (hn : n.getLsbD (3 - p.val) = decide (caseBit L p c = 1#1)) : caseChar L n p = c := by
  obtain rfl | rfl := (matchLetter_iff L p c).mp hc
  · simp [caseChar, hn, caseBit, (up_ne _).symm]
  · simp [caseChar, hn, caseBit]

/-- The token of a valid word's case pattern is the word (R83, R89). -/
theorem caseEncode_casePattern {L : Letters} {t : TokenWord} (h : tokenValid L t = true) :
    caseEncode L (casePattern L t) = t :=
  tokenWord_ext fun p => by
    rw [tokenChar_caseEncode]
    exact caseChar_eq_of_matchLetter ((tokenValid_iff_forall L t).mp h p)
      (getLsbD_append_bits (fun p => caseBit L p (tokenChar t p)) p)

/-- The valid words are the tokens of the nibbles (R55, R69). -/
theorem tokenValid_iff_exists (L : Letters) (t : TokenWord) :
    tokenValid L t = true ↔ ∃ n : Nibble, caseEncode L n = t :=
  ⟨fun h => ⟨_, caseEncode_casePattern h⟩, fun ⟨n, hn⟩ => hn ▸ tokenValid_caseEncode L n⟩

/-- Settles O19: the case pattern tells a token's nibble, and a word whose positions match is valid. -/
theorem tokensAreDistinctAndExhaustive : Obligations.TokensAreDistinctAndExhaustive := by
  refine fun L => ⟨fun n m h => ?_, fun t => ?_⟩
  · rw [← casePattern_caseEncode L n, h, casePattern_caseEncode]
  · simp only [← tokenValid_iff_exists, tokenValid_iff_forall, matchLetter_iff]
    rfl

/-! ## The classifier -/

theorem classify_of_tokenValid {L : Letters} {t : TokenWord} (h : tokenValid L t = true) :
    classify L t = ⟨true, casePattern L t⟩ := if_pos h

theorem classify_eq_valid_iff {L : Letters} {t : TokenWord} {n : Nibble} :
    classify L t = ⟨true, n⟩ ↔ tokenValid L t = true ∧ casePattern L t = n := by
  obtain ⟨hv, hc⟩ | ⟨hv, hc⟩ := classify_cases L t <;> simp [hv, hc]

/-- Settles O20: the three clauses are the two ways round of the bijection, and `valid_o = 0` off the tokens. -/
theorem classifierInvertsCaseEncoder : Obligations.ClassifierInvertsCaseEncoder := by
  refine fun L => ⟨fun n => ?_, fun t n h => ?_, fun t h => ?_⟩
  · exact classify_eq_valid_iff.mpr ⟨tokenValid_caseEncode L n, casePattern_caseEncode L n⟩
  · obtain ⟨hv, rfl⟩ := classify_eq_valid_iff.mp h
    exact caseEncode_casePattern hv
  · exact if_neg fun hv => (not_exists.mpr h) ((tokenValid_iff_exists L t).mp hv)

/-! ## The bit 5 check -/

/-- Bit 5 is 1 in a lower-case letter and 0 in its upper-case form (R11). -/
theorem bit5_of_isLowerLetter (l : Byte) :
    isLowerLetter l = true → l.extractLsb' 5 1 = 1#1 ∧ (up l).extractLsb' 5 1 = 0#1 := by
  revert l; decide

/-- The case bit of a matching character is its bit 5, inverted. -/
theorem caseBit_eq_not_bit5 {L : Letters} (h : L.wf = true) {p : Pos} {c : Byte} (hc : matchLetter L p c = true) :
    caseBit L p c = ~~~(c.extractLsb' 5 1) := by
  obtain ⟨hlower, hupper⟩ := bit5_of_isLowerLetter _ (letterAt_isLowerLetter h p)
  obtain rfl | rfl := (matchLetter_iff L p c).mp hc
  · rw [hlower, caseBit, if_neg (up_ne _).symm]
    rfl
  · rw [hupper, caseBit, if_pos rfl]
    rfl

/-- Bit 5 of the character of position p, in the token word. -/
theorem bit5_tokenChar (t : TokenWord) (p : Pos) :
    (tokenChar t p).extractLsb' 5 1 = t.extractLsb' (24 - 8 * p.val + 5) 1 := by
  apply BitVec.eq_of_getLsbD_eq
  intro i hi
  have hi8 : 5 + i < 8 := by omega
  simp [tokenChar, hi, hi8, Nat.add_assoc]

/-- Settles O23, position by position. -/
theorem casePatternIsBitFiveInverted : Obligations.CasePatternIsBitFiveInverted := by
  intro L hL t n h
  obtain ⟨hv, rfl⟩ := classify_eq_valid_iff.mp h
  have hbit : ∀ p : Pos, caseBit L p (tokenChar t p) = ~~~(t.extractLsb' (24 - 8 * p.val + 5) 1) := fun p => by
    rw [caseBit_eq_not_bit5 hL ((tokenValid_iff_forall L t).mp hv p), bit5_tokenChar]
  rw [casePattern, hbit, hbit, hbit, hbit]
  rfl

/-! ## U_MUX and the LUT -/

/-- Settles O15: a byte is its two nibbles joined, and the nibbles of two nibbles joined are the two. -/
theorem splitAndJoinAreInverse : Obligations.SplitAndJoinAreInverse := by
  refine ⟨fun b s => ⟨_, _, _, _, exec_split s b, driveUnit_unitOut _ _, exec_join _ _ _, ?_⟩,
    fun h l s => ⟨_, _, _, exec_join s h l, driveUnit_unitOut _ _, exec_split _ _, ?_⟩⟩
  · rw [driveUnit_unitOut, joinNibbles_eq_append, append_nibbles]
  · rw [driveUnit_unitOut, joinNibbles_eq_append, hiNibble_append, loNibble_append]

/-- Settles O17: a read of the LUT is the case encoder, which the table lists for meow. -/
theorem lutContents : Obligations.LutContents := by
  refine fun s h => ⟨lutRead_of_wf h, fun hletters => ?_⟩
  simp only [lutRead_of_wf h, hletters]
  decide

/-! ## The characters of an encoded byte -/

theorem hiNibble_getLsbD (b : Byte) {k : Nat} (hk : k < 4) : (hiNibble b).getLsbD k = b.getLsbD (4 + k) := by
  simp [hiNibble, hk]

theorem loNibble_getLsbD (b : Byte) {k : Nat} (hk : k < 4) : (loNibble b).getLsbD k = b.getLsbD k := by
  simp [loNibble, hk]

/-- Character i of a byte's token pair is the letter of position i mod 4, its case bit `7 - i` of the byte (R10,
R42). -/
theorem streamChar_packPair_caseEncode (L : Letters) (b : Byte) (i : Fin 8) :
    streamChar (packPair (caseEncode L (hiNibble b)) (caseEncode L (loNibble b))) i =
      if b.getLsbD (7 - i.val) = true then up (letterAt L (Fin.ofNat 4 i.val)) else letterAt L (Fin.ofNat 4 i.val) := by
  rw [streamChar_packPair]
  split
  case isTrue hi =>
    have hpos : Fin.ofNat 4 i.val = ⟨i.val, hi⟩ := Fin.ext (Nat.mod_eq_of_lt hi)
    have hbit : 4 + (3 - i.val) = 7 - i.val := by omega
    rw [tokenChar_caseEncode, caseChar, hiNibble_getLsbD b (by omega), hpos, hbit]
  case isFalse hi =>
    have hpos : Fin.ofNat 4 i.val = ⟨i.val - 4, by omega⟩ := Fin.ext (show i.val % 4 = i.val - 4 by omega)
    have hbit : 3 - (i.val - 4) = 7 - i.val := by omega
    rw [tokenChar_caseEncode, caseChar, loNibble_getLsbD b (by omega), hpos, hbit]

/-- In a state whose LUT is well-formed, the word of an encoded byte is the token pair of its nibbles (R84, R92). -/
theorem encodedWord_of_wf {s : State} (h : Memory.wf s.letters s.lut = true) (b : Byte) :
    encodedWord s b = packPair (caseEncode s.letters (hiNibble b)) (caseEncode s.letters (loNibble b)) := by
  rw [encodedWord, lutRead_of_wf h, lutRead_of_wf h]

/-- Settles O26: the response is the token pair of the two nibbles. -/
theorem encodedCharactersSpellTheByte : Obligations.EncodedCharactersSpellTheByte := by
  refine fun b s h => ⟨_, exec_encByte b s, fun i => ?_⟩
  rw [emitChars_out, driveChars_out, encodedWord_of_wf h]
  exact streamChar_packPair_caseEncode s.letters b i

end Sys2Proof.Machine

/-! # The family `other`: runs of operations, encode calls and emitted output

Every run answers a next state (`runOps_completes`), and what each of its operations keeps the run keeps
(`runOps_induction`). -/

namespace Sys2Proof.Machine

/-! ## Runs of operations -/

/-- A run of `i :: is` is the operation `i` and a run of `is`. -/
theorem runOps_cons_next {i : Instr} {is : List Instr} {s t : State} (h : runOps (i :: is) s = .next t) :
    ∃ u, exec i s = .next u ∧ runOps is u = .next t := by
  obtain ⟨u, hu⟩ := exec_completes i s
  exact ⟨u, hu, (runOps_cons hu is).symm.trans h⟩

/-- Every run answers a next state. -/
theorem runOps_completes (is : List Instr) (s : State) : ∃ t, runOps is s = .next t := by
  induction is generalizing s with
  | nil => exact ⟨s, rfl⟩
  | cons i is ih =>
    obtain ⟨u, hu⟩ := exec_completes i s
    obtain ⟨t, ht⟩ := ih u
    exact ⟨t, (runOps_cons hu is).trans ht⟩

/-- A run of two lists is a run of the one and then of the other. -/
theorem runOps_append {is : List Instr} {s u : State} (h : runOps is s = .next u) (js : List Instr) :
    runOps (is ++ js) s = runOps js u := by
  induction is generalizing s with
  | nil => cases h; rfl
  | cons i is ih =>
    obtain ⟨v, hv, hu⟩ := runOps_cons_next h
    exact (runOps_cons hv _).trans (ih hu)

/-- What holds of a state and of every next state, every run keeps. -/
theorem runOps_induction {P : State → Prop} {is : List Instr} {s t : State} (h : runOps is s = .next t)
    (hs : P s) (hexec : ∀ i ∈ is, ∀ u v, P u → exec i u = .next v → P v) : P t := by
  induction is generalizing s with
  | nil => cases h; exact hs
  | cons i is ih =>
    obtain ⟨u, hu, ht⟩ := runOps_cons_next h
    rw [List.forall_mem_cons] at hexec
    exact ih ht (hexec.1 s u hs hu) hexec.2

/-! ## Encode calls -/

/-- The state after ENC_BYTE of `b` (R92). -/
def afterEncByte (b : Byte) (s : State) : State :=
  emitChars (encodedWord s b) (driveChars (encodedWord s b) (beginStep s))

theorem exec_encByte_eq (b : Byte) (s : State) : exec (.encByte b) s = .next (afterEncByte b s) := exec_encByte b s

/-- Settles O29, by induction on the byte list: ENC_BYTE appends the encoded byte and keeps LETTERS and the LUT. -/
theorem encodeCallEmitsTheEncodedStream : Obligations.EncodeCallEmitsTheEncodedStream := by
  intro bs
  induction bs with
  | nil => exact fun s _ => ⟨s, rfl, (List.append_nil _).symm, rfl, ⟨rfl, rfl, rfl, rfl, rfl⟩, rfl⟩
  | cons b bs ih =>
    intro s h
    obtain ⟨t, ht, hchars, hlength, hregs, hbytes⟩ := ih (afterEncByte b s) h
    have hbyte : (afterEncByte b s).charsOut = s.charsOut ++ encodeByte s.letters b := by
      rw [afterEncByte, emitChars_charsOut, encodedWord_of_wf h]
      rfl
    refine ⟨t, (runOps_cons (exec_encByte_eq b s) _).trans ht, ?_, ?_, hregs, hbytes⟩
    · rw [hchars, hbyte, List.append_assoc]
      rfl
    · rw [hlength, hbyte, List.length_append, List.length_cons]
      simp only [encodeByte, charsOfWord, List.length_cons, List.length_nil]
      omega

/-! ## ENC_BYTE beside a decoder operation -/

/-- Settles O28: ENC_BYTE sets only fields that the decoder operation does not read, and the decoder operation leaves
the LUT, which is all that ENC_BYTE reads. -/
theorem encodingInterleavesWithDecoding : Obligations.EncodingInterleavesWithDecoding := by
  intro b d s hd
  obtain ⟨v, hv⟩ := exec_completes d s
  obtain ⟨hchars, -⟩ := exec_decoderOp_keeps hd hv
  have hlut := exec_keeps_lut d s v hv
  have he := exec_encByte_eq b s
  have ht : exec d (afterEncByte b s) = .next (setStreams (afterEncByte b s).charsOut s.input v) := by
    rw [← exec_setStreams (afterEncByte b s).charsOut s.input hd hv, ← exec_beginStep,
      ← exec_beginStep d (setStreams ..)]
    rfl
  have hu := exec_encByte_eq b v
  rw [afterEncByte, encodedWord_congr hlut] at hu
  refine ⟨_, _, v, _, (runOps_cons he _).trans (runOps_cons ht _), (runOps_cons hv _).trans (runOps_cons hu _), hv, he,
    ⟨rfl, rfl, rfl, rfl, rfl⟩, ⟨rfl, rfl, rfl, rfl, rfl⟩, ⟨rfl, rfl, rfl, rfl, rfl⟩, rfl, rfl, rfl, ?_, rfl, rfl, hlut,
    hlut⟩
  rw [emitChars_charsOut, afterEncByte, emitChars_charsOut]
  exact congrArg (· ++ _) hchars

/-! ## Emitted output -/

/-- Every operation only adds to the output streams (R64). -/
theorem exec_extends_streams {i : Instr} {s t : State} (ht : exec i s = .next t) :
    s.bytesOut <+: t.bytesOut ∧ s.charsOut <+: t.charsOut := by
  by_cases hi : isUnitOp i = true ∨ i = .rst
  · obtain ⟨u, hu, hbytes, hchars⟩ := streams_unchanged_of_not_command hi s
    cases ht.symm.trans hu
    rw [hbytes, hchars]
    exact ⟨⟨[], List.append_nil _⟩, ⟨[], List.append_nil _⟩⟩
  · obtain ⟨hunit, hrst⟩ := not_or.mp hi
    obtain ⟨u, hu, hbytes, hchars⟩ := streamsFollow_of_command (Bool.eq_false_iff.mpr hunit) hrst s
    cases ht.symm.trans hu
    exact ⟨⟨_, hbytes.symm⟩, ⟨_, hchars.symm⟩⟩

/-- In the Error state no operation emits a byte (R116). -/
theorem exec_bytesOut_of_error {i : Instr} {s t : State} (he : s.err ≠ 0#2) (ht : exec i s = .next t) :
    t.bytesOut = s.bytesOut := by
  obtain ⟨b, -, rfl⟩ | ⟨u, -, rfl⟩ | ⟨-, rfl⟩ | ⟨-, rfl⟩ | ⟨c, -, -, rfl⟩ | ⟨c, -, he', -⟩ := exec_next_cases ht
  · rfl
  · rfl
  · rfl
  · rw [driveEndOk_bytesOut, endCheck_bytesOut, beginStep_bytesOut]
  · rfl
  · exact absurd he' he

/-- From the Error state a run without a clearing operation emits no byte and writes no decoder register (R116,
R117). -/
theorem runOps_of_error {is : List Instr} {s t : State} (he : s.err ≠ 0#2) (hclear : ∀ i ∈ is, isClearing i = false)
    (ht : runOps is s = .next t) : t.bytesOut = s.bytesOut ∧ sameDecoder s t := by
  refine runOps_induction (P := fun u => u.bytesOut = s.bytesOut ∧ sameDecoder s u) ht
    ⟨rfl, rfl, rfl, rfl, rfl, rfl⟩ fun i hi u v ⟨hbytes, hp, hc, htb, hh, her⟩ hv => ?_
  have heu : u.err ≠ 0#2 := her ▸ he
  obtain ⟨hp', hc', htb', hh', her'⟩ := sameDecoder_of_error heu (hclear i hi) hv
  exact ⟨(exec_bytesOut_of_error heu hv).trans hbytes, hp'.trans hp, hc'.trans hc, htb'.trans htb, hh'.trans hh,
    her'.trans her⟩

/-- Settles O42: each operation of a run only adds to the streams, and keeps the Error state's registers. -/
theorem emittedOutputStays : Obligations.EmittedOutputStays := by
  refine ⟨fun is s t ht => ?_, fun is s t he hclear ht => runOps_of_error he hclear ht⟩
  refine runOps_induction (P := fun u => s.bytesOut <+: u.bytesOut ∧ s.charsOut <+: u.charsOut) ht
    ⟨⟨[], List.append_nil _⟩, ⟨[], List.append_nil _⟩⟩ fun i _ u v ⟨hbytes, hchars⟩ hv => ?_
  obtain ⟨hbytes', hchars'⟩ := exec_extends_streams hv
  exact ⟨hbytes.trans hbytes', hchars.trans hchars'⟩

/-! ## Outputs that an operation does not drive -/

@[simp] theorem tokenStep_unitOut (w : TokenWord) (s : State) : (tokenStep w s).unitOut = s.unitOut := by
  obtain ⟨-, e⟩ | ⟨-, -, e⟩ | ⟨-, -, e⟩ := tokenStep_cases w s <;> simp [e]

@[simp] theorem acceptChar_unitOut (c : Byte) (s : State) : (acceptChar c s).unitOut = s.unitOut := by
  obtain ⟨-, e⟩ | ⟨-, e⟩ := acceptChar_cases c s <;> simp [e]

@[simp] theorem endCheck_unitOut (s : State) : (endCheck s).unitOut = s.unitOut := by rw [endCheck_eq]

/-- A command or RST shows no value on a unit port (log entry 5). -/
theorem exec_unitOut_of_not_unitOp {i : Instr} {s t : State} (hi : isUnitOp i = false) (ht : exec i s = .next t) :
    t.unitOut = .none := by
  obtain ⟨b, -, rfl⟩ | ⟨u, hi', -⟩ | ⟨-, rfl⟩ | ⟨-, rfl⟩ | ⟨c, -, -, rfl⟩ | ⟨c, -, -, rfl⟩ := exec_next_cases ht
  · rfl
  · exact absurd hi' (Bool.eq_false_iff.mp hi)
  · rfl
  · rw [driveEndOk_unitOut, endCheck_unitOut, beginStep_unitOut]
  · rfl
  · rw [acceptChar_unitOut, beginStep_unitOut]

/-- A unit evaluation or RST shows no response (log entry 4). -/
theorem exec_out_of_not_command {i : Instr} {s t : State} (hi : isUnitOp i = true ∨ i = .rst)
    (ht : exec i s = .next t) : t.out = Response.zero := by
  obtain hi | rfl := hi
  · obtain ⟨u, hu⟩ := exec_unitOp hi s
    cases ht.symm.trans (hu s rfl rfl)
    rfl
  · cases ht
    rfl

/-- Settles O47: a unit evaluation drives its port alone, and a command or RST no port. -/
theorem undrivenOutputsAreCleared : Obligations.UndrivenOutputsAreCleared := by
  intro i s
  obtain ⟨t, ht⟩ := exec_completes i s
  exact ⟨t, ht, fun hi => exec_out_of_not_command hi ht, fun hi => exec_unitOut_of_not_unitOp hi ht⟩

end Sys2Proof.Machine

/-! # The family `other`: the decoder's state, its position and its hidden registers

What an operation reads, two states that agree outside the hidden registers agree on; so each operation over the state
takes them to states that agree again (`AgreeOutside.after_…`), and so do an operation, a step and a run. -/

namespace Sys2Proof.Machine

/-! ## The three decoder states -/

section decoderState
variable {s : State}

theorem decoderState_error (h : s.err ≠ 0#2) : decoderState s = .error := if_neg h

theorem decoderState_high (he : s.err = 0#2) (hp : s.phase = 0#1) : decoderState s = .expectHighToken := by
  rw [decoderState, if_pos he, if_pos hp]

theorem decoderState_low (he : s.err = 0#2) (hp : s.phase = 1#1) : decoderState s = .expectLowToken := by
  rw [decoderState, if_pos he, if_neg (by rw [hp]; decide)]

end decoderState

/-- Settles O34: the answer of the classifier and PHASE name the equation of DEC_CHAR that gives the next state. -/
theorem completedTokenMovesTheDecoderState : Obligations.CompletedTokenMovesTheDecoderState := by
  intro c s he hc
  obtain ⟨t, ht⟩ := exec_completes (.decChar c) s
  refine ⟨t, ht, fun hv => ?_, fun hv => ⟨fun hs => ?_, fun hs => ?_⟩⟩ <;> rw [← classify_valid] at hv
  · cases ht.symm.trans (exec_decChar_invalid he hc hv)
    exact decoderState_error (by simp)
  · by_cases hp : s.phase = 0#1
    · cases ht.symm.trans (exec_decChar_high he hc hv hp)
      exact decoderState_low he rfl
    · rw [decoderState_low he (phase_ne_zero hp)] at hs
      cases hs
  · by_cases hp : s.phase = 0#1
    · rw [decoderState_high he hp] at hs
      cases hs
    · cases ht.symm.trans (exec_decChar_low he hc hv (phase_ne_zero hp))
      exact decoderState_high he rfl

/-! ## The stream position -/

/-- The position is that of PHASE and CNT alone (R20). -/
theorem streamPosition_congr {s t : State} (hp : t.phase = s.phase) (hc : t.cnt = s.cnt) :
    streamPosition t = streamPosition s := by
  rw [streamPosition, hp, hc, streamPosition]

/-- Before the last position of a token CNT counts up without wrapping. -/
theorem cnt_succ_toNat : ∀ n : BitVec 2, n ≠ 3#2 → (n + 1#2).toNat = n.toNat + 1 ∧ n.toNat < 3 := by decide

/-- DEC_CHAR that leaves no error moves to the next position, from the last of a token pair to the first (R20). -/
theorem streamPosition_decChar {c : Byte} {s t : State} (he : s.err = 0#2) (ht : exec (.decChar c) s = .next t)
    (het : t.err = 0#2) : streamPosition t = (streamPosition s + 1) % 8 := by
  cases (execDecChar_accept he).symm.trans ht
  obtain ⟨hc, e⟩ | ⟨-, -, e⟩ | ⟨hc, -, hp, e⟩ | ⟨hc, -, hp, e⟩ := acceptChar_token_cases c (beginStep s)
  · obtain ⟨hsucc, hlt⟩ := cnt_succ_toNat s.cnt hc
    have hphase := s.phase.isLt
    simp only [e, streamPosition, setCnt_phase, setCnt_cnt, storeChar_phase, beginStep_phase, beginStep_cnt, hsucc]
    omega
  · rw [e] at het
    cases het
  · simp [e, streamPosition, show s.cnt = 3#2 from hc, show s.phase = 0#1 from hp]
  · simp [e, streamPosition, show s.cnt = 3#2 from hc, show s.phase = 1#1 from hp]

/-- Settles O35: DEC_END writes ERR alone and the operations that are not of U_DEC write no decoder register. -/
theorem streamPositionAdvancesByOne : Obligations.StreamPositionAdvancesByOne := by
  refine ⟨fun c s t => streamPosition_decChar, fun i s t hchar hclear hrst ht => ?_⟩
  cases i with
  | decChar c => exact absurd rfl (hchar c)
  | decClear => exact absurd rfl hclear
  | rst => exact absurd rfl hrst
  | decEnd =>
    cases (exec_decEnd s).symm.trans ht
    rw [endCheck_eq]
    rfl
  | encByte _ | tokenOf _ | classify _ | split _ | join _ _ =>
    obtain ⟨hp, hc, -, -, -⟩ := sameDecoder_of_not_decoderOp rfl ht
    exact streamPosition_congr hp hc

/-! ## Hidden registers -/

section agree
variable {s t : State} (h : AgreeOutside s t)
include h

/-- States that agree before an operation agree once its outputs are cleared. -/
theorem AgreeOutside.after_beginStep : AgreeOutside (beginStep s) (beginStep t) :=
  { h with out := rfl, unitOut := rfl }

theorem AgreeOutside.after_driveUnit (u : UnitOut) : AgreeOutside (driveUnit u s) (driveUnit u t) :=
  { h with unitOut := rfl }

theorem AgreeOutside.after_setInput (ps : List PortInput) :
    AgreeOutside { s with input := ps } { t with input := ps } :=
  { h with input := rfl }

theorem AgreeOutside.after_emitChars (w : EncodedWord) :
    AgreeOutside (emitChars w (driveChars w s)) (emitChars w (driveChars w t)) :=
  { h with
    out := by simp [h.out]
    charsOut := by simp [h.charsOut] }

theorem AgreeOutside.after_clearDecoder : AgreeOutside (clearDecoder s) (clearDecoder t) :=
  { h with
    phase := rfl, cnt := rfl, err := rfl
    written := fun _ _ _ => rfl
    pending := fun _ _ => rfl }

theorem AgreeOutside.after_raiseFormatError (e : FormatError) :
    AgreeOutside (raiseFormatError e s) (raiseFormatError e t) :=
  have hcode : errorCode e ≠ 0#2 := by cases e <;> decide
  { h with
    err := rfl
    written := fun he => absurd he hcode
    pending := fun he => absurd he hcode }

/-- The length check reads ERR, CNT and PHASE alone (R101). -/
theorem AgreeOutside.endCheck_err : (endCheck t).err = (endCheck s).err := by
  simp only [endCheck, h.err, h.cnt, h.phase, apply_ite State.err, raiseFormatError_err]

theorem AgreeOutside.after_endCheck : AgreeOutside (endCheck s) (endCheck t) := by
  have hno : (endCheck s).err = 0#2 → s.err = 0#2 := fun he =>
    have ⟨_, _, he'⟩ := endCheck_err_eq_zero_iff.mp he
    he'
  rw [endCheck_eq s, endCheck_eq t]
  exact { h with
    err := h.endCheck_err
    written := fun he => h.written (hno he)
    pending := fun he => h.pending (hno he) }

theorem AgreeOutside.after_driveEndOk (v : Bool) : AgreeOutside (driveEndOk v s) (driveEndOk v t) :=
  { h with out := by simp [h.out] }

section noError
variable (he : s.err = 0#2)
include he

/-- After a store the buffers agree on the new character too. -/
theorem AgreeOutside.storeChar_written (c : Byte) {p : Pos} (hp : p.val < s.cnt.toNat + 1) :
    tbufRead (storeChar c t).tbuf p = tbufRead (storeChar c s).tbuf p := by
  rw [storeChar_tbuf, storeChar_tbuf, h.cnt]
  by_cases hslot : p = s.cnt.toFin
  · rw [hslot, tbufRead_tbufWrite_same, tbufRead_tbufWrite_same]
  · have hlt : p.val < s.cnt.toNat :=
      Nat.lt_of_le_of_ne (Nat.lt_succ_iff.mp hp) fun heq => hslot (Fin.ext heq)
    rw [tbufRead_tbufWrite_other _ _ _ _ hslot, tbufRead_tbufWrite_other _ _ _ _ hslot, h.written he p hlt]

theorem AgreeOutside.after_storeChar (c : Byte) {n : BitVec 2} (hn : n.toNat ≤ s.cnt.toNat + 1) :
    AgreeOutside (setCnt n (storeChar c s)) (setCnt n (storeChar c t)) :=
  { h with
    cnt := rfl
    written := fun _ _ hp => h.storeChar_written he c (Nat.lt_of_lt_of_le hp hn) }

/-- A token whose last character is being stored is the same word in both states. -/
theorem AgreeOutside.storeChar_token (c : Byte) (hc : s.cnt = 3#2) :
    tbufToken (storeChar c t).tbuf = tbufToken (storeChar c s).tbuf := by
  have hslot : ∀ p : Pos, tbufRead (storeChar c t).tbuf p = tbufRead (storeChar c s).tbuf p := fun p =>
    h.storeChar_written he c (by rw [hc]; exact p.isLt)
  simp only [tbufToken, hslot]

/-- TokenStep reads HI with a high nibble pending only (R100, R105). -/
theorem AgreeOutside.after_tokenStep (w : TokenWord) : AgreeOutside (tokenStep w s) (tokenStep w t) := by
  have hclass : classify t.letters w = classify s.letters w := by rw [h.letters]
  cases hv : (classify s.letters w).valid with
  | false =>
    rw [tokenStep_invalid hv, tokenStep_invalid (hclass ▸ hv)]
    exact h.after_raiseFormatError .badLetter
  | true =>
    by_cases hp : s.phase = 0#1
    · rw [tokenStep_high hv hp, tokenStep_high (hclass ▸ hv) (h.phase.trans hp), hclass]
      exact { h with phase := rfl, pending := fun _ _ => rfl }
    · have hp := phase_ne_zero hp
      rw [tokenStep_low hv hp, tokenStep_low (hclass ▸ hv) (h.phase.trans hp), hclass, h.pending he hp]
      exact { h with
        phase := rfl
        out := by simp [h.out]
        bytesOut := by simp [h.bytesOut]
        pending := fun _ hphase => by simp at hphase }

theorem AgreeOutside.after_acceptChar (c : Byte) : AgreeOutside (acceptChar c s) (acceptChar c t) := by
  by_cases hc : s.cnt = 3#2
  · have hzero : (0#2).toNat ≤ s.cnt.toNat + 1 := Nat.zero_le _
    simp only [acceptChar, h.cnt, if_pos hc, h.storeChar_token he c hc]
    exact (h.after_storeChar he c hzero).after_tokenStep he _
  · obtain ⟨hsucc, -⟩ := cnt_succ_toNat s.cnt hc
    simp only [acceptChar, h.cnt, if_neg hc]
    exact h.after_storeChar he c hsucc.le

end noError

/-- A unit evaluation reads LETTERS and the LUT alone (R48). -/
theorem AgreeOutside.after_exec_unitOp {i : Instr} {s' : State} (hi : isUnitOp i = true) (hs : exec i s = .next s') :
    ∃ t', exec i t = .next t' ∧ AgreeOutside s' t' := by
  obtain ⟨u, hu⟩ := exec_unitOp hi s
  cases (hu s rfl rfl).symm.trans hs
  exact ⟨_, hu t h.letters h.lut, h.after_beginStep.after_driveUnit u⟩

/-- States that agree before an operation agree after it (R34, R105). -/
theorem AgreeOutside.after_exec {i : Instr} {s' : State} (hs : exec i s = .next s') :
    ∃ t', exec i t = .next t' ∧ AgreeOutside s' t' := by
  have hbegin := h.after_beginStep
  cases i with
  | encByte b =>
    cases (exec_encByte b s).symm.trans hs
    refine ⟨_, exec_encByte b t, ?_⟩
    rw [encodedWord_congr h.lut]
    exact hbegin.after_emitChars _
  | decChar c =>
    by_cases he : s.err = 0#2
    · cases (execDecChar_accept he).symm.trans hs
      exact ⟨_, execDecChar_accept (h.err.trans he), hbegin.after_acceptChar he c⟩
    · cases (execDecChar_error he).symm.trans hs
      exact ⟨_, execDecChar_error (h.err ▸ he), hbegin⟩
  | decEnd =>
    cases (exec_decEnd s).symm.trans hs
    have hcheck := hbegin.after_endCheck
    have hok : endOkOf (endCheck (beginStep t)) = endOkOf (endCheck (beginStep s)) := by
      rw [endOkOf, hcheck.err, endOkOf]
    refine ⟨_, exec_decEnd t, ?_⟩
    rw [hok]
    exact hcheck.after_driveEndOk _
  | decClear | rst =>
    cases (exec_of_isClearing rfl s).symm.trans hs
    exact ⟨_, exec_of_isClearing rfl t, hbegin.after_clearDecoder⟩
  | tokenOf _ | classify _ | split _ | join _ _ =>
    exact h.after_exec_unitOp rfl hs

/-- States that agree before a run agree after it. -/
theorem AgreeOutside.after_runOps {is : List Instr} {s' : State} (hs : runOps is s = .next s') :
    ∃ t', runOps is t = .next t' ∧ AgreeOutside s' t' := by
  induction is generalizing s t with
  | nil => cases hs; exact ⟨t, rfl, h⟩
  | cons i is ih =>
    obtain ⟨u, hu, hs'⟩ := runOps_cons_next hs
    obtain ⟨v, hv, huv⟩ := h.after_exec hu
    rw [runOps_cons hv]
    exact ih huv hs'

end agree

/-- Settles O41: both states take the same step, and what an operation reads they agree on. -/
theorem hiddenRegistersAreNotObserved : Obligations.HiddenRegistersAreNotObserved := by
  intro s t s' h hs
  obtain ⟨hin, rfl⟩ | ⟨p, rest, i, hin, hi, hs'⟩ := step_next_cases hs
  · exact ⟨t, step_of_input_nil (h.input.trans hin), h⟩
  · rw [step_of_instr (h.input.trans hin) hi]
    exact (h.after_setInput rest).after_exec hs'

/-! ## A decode call from the start of a stream -/

/-- At the start of a stream nothing is written that clearing the decoder could be seen to change. -/
theorem agreeOutside_clearDecoder {s : State} (h : streamStart s) : AgreeOutside (clearDecoder s) s := by
  obtain ⟨hp, hc, he⟩ := h
  exact ⟨rfl, rfl, hp, hc, he, rfl, rfl, rfl, rfl, rfl, fun _ p hlt => absurd hlt (Nat.not_lt_zero p.val),
    fun _ hphase => absurd hphase (by simp)⟩

/-- A run that is not empty does not read the outputs that stand at its start (R13). -/
theorem runOps_beginStep {is : List Instr} (his : is ≠ []) (s : State) : runOps is (beginStep s) = runOps is s := by
  cases is with
  | nil => exact absurd rfl his
  | cons i is => rw [runOps, exec_beginStep, runOps]

/-- A decode call is a run of its characters and DEC_END from the cleared decoder (R106). -/
theorem runOps_decodeCall (cs : List Byte) (s : State) :
    runOps (decodeCall cs) s = runOps (decStr cs ++ [.decEnd]) (clearDecoder (beginStep s)) :=
  runOps_cons (exec_of_isClearing rfl s) _

/-- Settles O40: DEC_CLEAR at the start of a stream gives a state that agrees with the one before it, and so do the
states after the characters and DEC_END. -/
theorem freshStreamNeedsNoClear : Obligations.FreshStreamNeedsNoClear := by
  intro cs s h
  obtain ⟨u, hu⟩ := runOps_completes (decStr cs ++ [.decEnd]) (clearDecoder (beginStep s))
  have hagree : AgreeOutside (clearDecoder (beginStep s)) (beginStep s) := agreeOutside_clearDecoder h
  obtain ⟨t, ht, hut⟩ := hagree.after_runOps hu
  rw [runOps_beginStep (by simp)] at ht
  refine ⟨t, u, ht, (runOps_decodeCall cs s).trans hu, ?_, statusO_congr hut.err hut.phase hut.cnt⟩
  rw [decodeCallOutcome, hut.bytesOut, hut.out, decodeCallOutcome]

end Sys2Proof.Machine

/-! # The family `other`: the invariant

Reset meets `Inv`. A step runs one operation, and for each operation the fields it writes are those the clauses of `Inv`
speak of: the outputs are cleared first (`Inv.clearOutputs`), and then the operation's own clauses are shown. -/

namespace Sys2Proof.Machine

/-! ## Reset -/

/-- The reset state of a block meets the invariant, whatever letters it is built with (R33, R130). -/
theorem inv_resetWith (L : Letters) (h : L.wf = true) : Inv (State.resetWith L h) where
  letters := h
  rom := resetWith_memory_wf L h
  badLetter he := absurd he (by simp)
  partialToken he := absurd he (by simp)
  oddToken he := absurd he (by simp)
  pendingNibble hp := absurd hp (by simp)
  byteUndriven _ := rfl
  byteDriven hb := absurd hb (by simp)
  endOk ho := absurd ho (by simp)
  charsOut := ⟨[], rfl⟩

/-- Settles O52: `State.reset` is the reset state for meow. -/
theorem resetMeetsTheInvariant : Obligations.ResetMeetsTheInvariant := ⟨inv_resetWith, inv_resetWith _ _⟩

/-! ## What each operation keeps -/

section inv
variable {s : State} (h : Inv s)
include h

/-- The invariant does not speak of the operations pending. -/
theorem Inv.setInput (ps : List PortInput) : Inv { s with input := ps } := { h with }

/-- A state with no response meets the invariant when the registers do. -/
theorem Inv.clearOutputs (u : UnitOut) : Inv { s with out := Response.zero, unitOut := u } :=
  { h with
    byteUndriven := fun _ => rfl
    byteDriven := fun hb => absurd hb (by simp)
    endOk := fun ho => absurd ho (by simp) }

section registers
variable {phase : BitVec 1} {cnt : BitVec 2} {tbuf : TokenBuf} {hi : Nibble} {err : BitVec 2}

/-- Where no response is shown, the clauses on the decoder registers are all that writing them has to meet. -/
theorem Inv.setRegisters
    (badLetter : err = 1#2 → cnt = 0#2 ∧ tokenValid s.letters (tbufToken tbuf) = false)
    (partialToken : err = 2#2 → cnt ≠ 0#2)
    (oddToken : err = 3#2 → cnt = 0#2 ∧ phase = 1#1)
    (pendingNibble : phase = 1#1 → cnt = 0#2 → err ≠ 1#2 → classify s.letters (tbufToken tbuf) = ⟨true, hi⟩) :
    Inv { s with
      out := Response.zero, unitOut := .none, phase := phase, cnt := cnt, tbuf := tbuf, hi := hi, err := err } :=
  { h.clearOutputs .none with
    badLetter := badLetter
    partialToken := partialToken
    oddToken := oddToken
    pendingNibble := pendingNibble
    byteDriven := fun hb => absurd hb (by simp)
    endOk := fun ho => absurd ho (by simp) }

/-- Without an error the registers have to meet the clause on a pending nibble only. -/
theorem Inv.setRegisters_noError (he : err = 0#2)
    (pendingNibble : phase = 1#1 → cnt = 0#2 → classify s.letters (tbufToken tbuf) = ⟨true, hi⟩) :
    Inv { s with
      out := Response.zero, unitOut := .none, phase := phase, cnt := cnt, tbuf := tbuf, hi := hi, err := err } := by
  subst he
  exact h.setRegisters (fun he => absurd he (by decide)) (fun he => absurd he (by decide))
    (fun he => absurd he (by decide)) fun hp hc _ => pendingNibble hp hc

end registers

/-- ENC_BYTE appends one more encoded byte (R61, R97). -/
theorem Inv.afterEncByte (b : Byte) : Inv (afterEncByte b s) := by
  obtain ⟨bs, hbs⟩ := h.charsOut
  have hbyte : charsOfWord (encodedWord s b) = encodeByte s.letters b := by rw [encodedWord_of_wf h.rom, encodeByte]
  exact { h.clearOutputs .none with
    byteUndriven := fun _ => rfl
    byteDriven := fun hb => absurd hb (by simp [Machine.afterEncByte])
    endOk := fun ho => absurd ho (by simp [Machine.afterEncByte])
    charsOut := ⟨bs ++ [b], by
      simp [Machine.afterEncByte, hbs, hbyte, encodeStream]⟩ }

/-- The cleared decoder has no nibble pending (R102, R129). -/
theorem Inv.clearDecoder : Inv (clearDecoder (beginStep s)) :=
  h.setRegisters_noError rfl fun hp => absurd hp (by decide)

/-- DEC_END raises each error where the invariant has it, and shows `out.end_ok` at the start of a stream (R101). -/
theorem Inv.exec_decEnd {t : State} (ht : exec .decEnd s = .next t) : Inv t := by
  by_cases he : s.err = 0#2
  · by_cases hc : s.cnt = 0#2
    · by_cases hp : s.phase = 1#1
      · cases ht.symm.trans (exec_decEnd_oddToken he hc hp)
        exact h.setRegisters (fun he' => absurd he' (by decide)) (fun he' => absurd he' (by decide))
          (fun _ => ⟨hc, hp⟩) fun _ _ _ => h.pendingNibble hp hc (by simp [he])
      · have hstart : streamStart s := ⟨phase_ne_one hp, hc, he⟩
        cases ht.symm.trans (exec_decEnd_streamStart hstart)
        exact { h.clearOutputs .none with
          byteUndriven := fun _ => rfl
          byteDriven := fun hb => absurd hb (by simp)
          endOk := fun _ => hstart }
    · cases ht.symm.trans (exec_decEnd_partialToken he hc)
      exact h.setRegisters (fun he' => absurd he' (by decide)) (fun _ => hc) (fun he' => absurd he' (by decide))
        fun _ hc' => absurd hc' hc
  · cases ht.symm.trans (exec_decEnd_error he)
    exact h.clearOutputs .none

/-- Accepting a character leaves a token in part, a token that is not valid, a pending nibble, or a byte just shown
(R99, R100). -/
theorem Inv.acceptChar (he : s.err = 0#2) (c : Byte) : Inv (acceptChar c (beginStep s)) := by
  obtain ⟨hc, e⟩ | ⟨-, hv, e⟩ | ⟨-, hv, -, e⟩ | ⟨-, -, -, e⟩ := acceptChar_token_cases c (beginStep s) <;> rw [e]
  · obtain ⟨hsucc, -⟩ := cnt_succ_toNat s.cnt hc
    exact h.setRegisters_noError he fun _ hc' => absurd (hsucc.symm.trans (congrArg BitVec.toNat hc')) (by simp)
  · exact h.setRegisters (fun _ => ⟨rfl, hv⟩) (fun he' => absurd he' (by decide)) (fun he' => absurd he' (by decide))
      fun _ _ he' => absurd rfl he'
  · exact h.setRegisters_noError he fun _ _ => classify_of_tokenValid hv
  · exact { h.setRegisters_noError he fun hp => absurd hp (by decide) with
      byteUndriven := fun hb => absurd hb (by simp)
      byteDriven := fun _ => ⟨⟨rfl, rfl, he⟩, by simp [joinNibbles_eq_append]⟩
      endOk := fun ho => absurd ho (by simp) }

/-- Every operation keeps the invariant. -/
theorem Inv.exec {i : Instr} {t : State} (ht : exec i s = .next t) : Inv t := by
  obtain ⟨b, -, rfl⟩ | ⟨u, -, rfl⟩ | ⟨-, rfl⟩ | ⟨rfl, -⟩ | ⟨c, -, -, rfl⟩ | ⟨c, -, he, rfl⟩ := exec_next_cases ht
  · exact h.afterEncByte b
  · exact h.clearOutputs u
  · exact h.clearDecoder
  · exact h.exec_decEnd ht
  · exact h.clearOutputs .none
  · exact h.acceptChar he c

end inv

/-- Settles O53: a step is an operation on the state without its input, or changes nothing. -/
theorem stepKeepsTheInvariant : Obligations.StepKeepsTheInvariant := by
  intro s s' h hs
  obtain ⟨-, rfl⟩ | ⟨p, rest, i, -, -, ht⟩ := step_next_cases hs
  · exact h
  · exact (h.setInput rest).exec ht

end Sys2Proof.Machine

/-! # The family `other`: decode calls

A character stream is read a token at a time. From a boundary between tokens without an error, a whole token has one of
three effects (`runOps_decToken_cases`), and fewer than four characters are only stored (`runOps_decStr_short`). So a
run of DEC_CHAR is described by induction on the stream in steps of four characters (`token_induction`), and DEC_END and
DEC_CLEAR are added at its ends. -/

namespace Sys2Proof.Machine

/-! ## Streams of characters -/

/-- Induction on a stream by its tokens: fewer than four characters, or a token before a stream. -/
theorem token_induction {P : List Byte → Prop} (short : ∀ cs, cs.length < 4 → P cs)
    (token : ∀ c0 c1 c2 c3 rest, P rest → P (c0 :: c1 :: c2 :: c3 :: rest)) (cs : List Byte) : P cs :=
  match cs with
  | c0 :: c1 :: c2 :: c3 :: rest => token c0 c1 c2 c3 rest (token_induction short token rest)
  | [] | [_] | [_, _] | [_, _, _] => short _ (by simp)

section pure
variable (L : Letters)

/-- Fewer than four characters hold no whole token: the stream ends mid-token, or at the end of the tokens before it. -/
theorem streamError_short (odd : Bool) {cs : List Byte} (h : cs.length < 4) :
    streamError L odd cs = if cs.length = 0 then (if odd then 3 else 0) else 2 := by
  match cs with
  | [] | [_] | [_, _] | [_, _, _] => rfl
  | _ :: _ :: _ :: _ :: _ => exact absurd h (by simp only [List.length_cons]; omega)

theorem allTokensValid_short {cs : List Byte} (h : cs.length < 4) : allTokensValid L cs = true := by
  match cs with
  | [] | [_] | [_, _] | [_, _, _] => rfl
  | _ :: _ :: _ :: _ :: _ => exact absurd h (by simp only [List.length_cons]; omega)

section token
variable {L} {c0 c1 c2 c3 : Byte} (odd : Bool) (rest : List Byte)

theorem streamError_invalid (hv : tokenValid L (packToken c0 c1 c2 c3) = false) :
    streamError L odd (c0 :: c1 :: c2 :: c3 :: rest) = 1#2 := by
  simp [streamError, hv]

theorem streamError_valid (hv : tokenValid L (packToken c0 c1 c2 c3) = true) :
    streamError L odd (c0 :: c1 :: c2 :: c3 :: rest) = streamError L (!odd) rest := by
  simp [streamError, hv]

end token

/-- A stream with a token that is not valid has BAD_LETTER as its first error (R112). -/
theorem streamError_of_invalid (cs : List Byte) :
    ∀ odd, allTokensValid L cs = false → streamError L odd cs = 1#2 := by
  induction cs using token_induction with
  | short cs h => intro odd hv; simp [allTokensValid_short L h] at hv
  | token c0 c1 c2 c3 rest ih =>
    intro odd hv
    cases ht : tokenValid L (packToken c0 c1 c2 c3) with
    | false => exact streamError_invalid odd rest ht
    | true => rw [streamError_valid odd rest ht, ih _ (by simpa [allTokensValid, ht] using hv)]

/-- Without such a token the length decides: 2 inside a token, 3 after an odd number of tokens, those before the stream
counted (R112, R119). -/
theorem streamError_of_allTokensValid (cs : List Byte) :
    ∀ odd : Bool, allTokensValid L cs = true → streamError L odd cs =
      if cs.length % 4 ≠ 0 then 2#2 else if (cs.length / 4 + odd.toNat) % 2 = 1 then 3#2 else 0#2 := by
  induction cs using token_induction with
  | short cs h =>
    intro odd _
    rw [streamError_short L odd h, Nat.mod_eq_of_lt h, Nat.div_eq_of_lt h]
    cases odd <;> by_cases hl : cs.length = 0 <;> simp [hl]
  | token c0 c1 c2 c3 rest ih =>
    intro odd hv
    simp only [allTokensValid, Bool.and_eq_true] at hv
    obtain ⟨ht, hrest⟩ := hv
    have hparity : (rest.length / 4 + (!odd).toNat) % 2 = (rest.length / 4 + 1 + odd.toNat) % 2 := by
      cases odd <;> simp
      omega
    have hlength : (c0 :: c1 :: c2 :: c3 :: rest).length = rest.length + 4 := rfl
    rw [streamError_valid odd rest ht, ih _ hrest, hparity, hlength, Nat.add_mod_right, Nat.add_div_right _ (by decide)]

end pure

/-! ## Bytes, a token at a time -/

/-- The bytes of a stream before which a high nibble may be pending: `streamBytes`, a token at a time (R106). -/
def bytesAfter (L : Letters) (pending : Option Nibble) (cs : List Byte) : List Byte :=
  match cs with
  | c0 :: c1 :: c2 :: c3 :: rest =>
    if tokenValid L (packToken c0 c1 c2 c3) then
      match pending with
      | none => bytesAfter L (some (casePattern L (packToken c0 c1 c2 c3))) rest
      | some h => joinNibbles h (casePattern L (packToken c0 c1 c2 c3)) :: bytesAfter L none rest
    else []
  | _ => []

section token
variable {L : Letters} {c0 c1 c2 c3 : Byte}

theorem bytesAfter_invalid (hv : tokenValid L (packToken c0 c1 c2 c3) = false) (pending : Option Nibble)
    (rest : List Byte) : bytesAfter L pending (c0 :: c1 :: c2 :: c3 :: rest) = [] := by
  simp [bytesAfter, hv]

variable (hv : tokenValid L (packToken c0 c1 c2 c3) = true) (rest : List Byte)
include hv

theorem bytesAfter_high :
    bytesAfter L none (c0 :: c1 :: c2 :: c3 :: rest) =
      bytesAfter L (some (casePattern L (packToken c0 c1 c2 c3))) rest := by
  simp [bytesAfter, hv]

theorem bytesAfter_low (h : Nibble) :
    bytesAfter L (some h) (c0 :: c1 :: c2 :: c3 :: rest) =
      joinNibbles h (casePattern L (packToken c0 c1 c2 c3)) :: bytesAfter L none rest := by
  simp [bytesAfter, hv]

end token

theorem bytesAfter_short (L : Letters) (pending : Option Nibble) {cs : List Byte} (h : cs.length < 4) :
    bytesAfter L pending cs = [] := by
  match cs with
  | [] | [_] | [_, _] | [_, _, _] => rfl
  | _ :: _ :: _ :: _ :: _ => exact absurd h (by simp only [List.length_cons]; omega)

/-- With no nibble pending the bytes are those of the pairs of tokens. -/
theorem bytesAfter_none (L : Letters) (cs : List Byte) : bytesAfter L none cs = streamBytes L cs := by
  fun_induction streamBytes L cs with
  | case1 c0 c1 c2 c3 c4 c5 c6 c7 rest hv ih =>
    obtain ⟨hhigh, hlow⟩ := Bool.and_eq_true_iff.mp hv
    rw [bytesAfter_high hhigh, bytesAfter_low hlow, ih]
  | case2 c0 c1 c2 c3 c4 c5 c6 c7 rest hv =>
    have hlow : tokenValid L (packToken c0 c1 c2 c3) = true → tokenValid L (packToken c4 c5 c6 c7) = false := by
      simpa using hv
    cases hhigh : tokenValid L (packToken c0 c1 c2 c3) with
    | false => exact bytesAfter_invalid hhigh _ _
    | true => rw [bytesAfter_high hhigh, bytesAfter_invalid (hlow hhigh)]
  | case3 cs h =>
    match cs, h with
    | [], _ | [_], _ | [_, _], _ | [_, _, _], _ | [_, _, _, _], _ | [_, _, _, _, _], _ | [_, _, _, _, _, _], _
    | [_, _, _, _, _, _, _], _ => simp [bytesAfter]
    | _ :: _ :: _ :: _ :: _ :: _ :: _ :: _ :: _, h => exact absurd rfl (h _ _ _ _ _ _ _ _ _)

/-- The high nibble pending in a state between two tokens. -/
def pendingHigh (s : State) : Option Nibble := if s.phase = 1#1 then some s.hi else none

theorem pendingHigh_high {s : State} (hp : s.phase = 0#1) : pendingHigh s = none := if_neg (by rw [hp]; decide)

theorem pendingHigh_low {s : State} (hp : s.phase = 1#1) : pendingHigh s = some s.hi := if_pos hp

/-! ## Runs of DEC_CHAR from a token boundary -/

theorem decStr_token (c0 c1 c2 c3 : Byte) (rest : List Byte) :
    decStr (c0 :: c1 :: c2 :: c3 :: rest) = decToken c0 c1 c2 c3 ++ decStr rest := rfl

/-- In the Error state the characters of a stream write no register and emit no byte (R116). -/
theorem runOps_decStr_of_error {cs : List Byte} {s t : State} (he : s.err ≠ 0#2) (ht : runOps (decStr cs) s = .next t) :
    t.bytesOut = s.bytesOut ∧ sameDecoder s t :=
  runOps_of_error he (by simp [decStr, isClearing]) ht

/-- Without an error before it, the length check has the error of CNT and PHASE (R101). -/
theorem endCheck_err_of_noError {s : State} (he : s.err = 0#2) :
    (endCheck s).err = if s.cnt = 0#2 then (if s.phase = 1#1 then 3#2 else 0#2) else 2#2 := by
  simp only [endCheck, apply_ite State.err, raiseFormatError_err, he]
  rfl

section boundary
variable {s : State} (he : s.err = 0#2)
include he

/-- Characters that complete no token are stored and counted, and change no other register and no stream (R99). -/
theorem runOps_decStr_short (cs : List Byte) (h : s.cnt.toNat + cs.length < 4) :
    ∃ t, runOps (decStr cs) s = .next t ∧ t.cnt.toNat = s.cnt.toNat + cs.length ∧
      t = { s with out := t.out, unitOut := t.unitOut, tbuf := t.tbuf, cnt := t.cnt } := by
  induction cs generalizing s with
  | nil => exact ⟨s, rfl, rfl, rfl⟩
  | cons c cs ih =>
    rw [List.length_cons] at h
    have hc : s.cnt ≠ 3#2 := by
      intro hc
      rw [hc] at h
      simp at h
      omega
    obtain ⟨hsucc, -⟩ := cnt_succ_toNat s.cnt hc
    have hstore := exec_decChar_store (c := c) he hc
    obtain ⟨t, ht, hcnt, hframe⟩ := ih (s := { s with
      out := Response.zero, unitOut := .none, tbuf := tbufWrite s.tbuf s.cnt.toFin c, cnt := s.cnt + 1#2 }) he
      (by simp only [hsucc]; omega)
    refine ⟨t, (runOps_cons hstore _).trans ht, ?_, hframe⟩
    simp only [hsucc] at hcnt
    rw [hcnt, List.length_cons]
    omega

variable (hc : s.cnt = 0#2)
include hc

/-- The four characters of a token fill TBUF, and the last of them takes the TokenStep (R99). -/
theorem runOps_decToken (c0 c1 c2 c3 : Byte) :
    runOps (decToken c0 c1 c2 c3) s = .next (tokenStep (packToken c0 c1 c2 c3)
      { s with out := Response.zero, unitOut := .none, tbuf := ⟨c0, c1, c2, c3⟩, cnt := 0#2 }) := by
  have h0 := exec_decChar_store (c := c0) he (by rw [hc]; decide)
  rw [hc] at h0
  have h1 : exec (.decChar c1)
      { s with out := Response.zero, unitOut := .none, tbuf := { s.tbuf with c0 := c0 }, cnt := 1#2 } = .next
      { s with out := Response.zero, unitOut := .none, tbuf := { s.tbuf with c0 := c0, c1 := c1 }, cnt := 2#2 } :=
    exec_decChar_store he (by simp)
  have h2 : exec (.decChar c2)
      { s with out := Response.zero, unitOut := .none, tbuf := { s.tbuf with c0 := c0, c1 := c1 }, cnt := 2#2 } = .next
      { s with out := Response.zero, unitOut := .none, tbuf := ⟨c0, c1, c2, s.tbuf.c3⟩, cnt := 3#2 } :=
    exec_decChar_store he (by simp)
  have h3 := exec_decChar_complete (c := c3)
    (s := { s with out := Response.zero, unitOut := .none, tbuf := ⟨c0, c1, c2, s.tbuf.c3⟩, cnt := 3#2 }) he rfl
  exact (runOps_cons h0 _).trans ((runOps_cons h1 _).trans ((runOps_cons h2 _).trans (runOps_cons h3 _)))

/-- The three effects of a whole token: BAD_LETTER, a pending nibble, or a byte (R100). -/
theorem runOps_decToken_cases (c0 c1 c2 c3 : Byte) :
    ∃ u, runOps (decToken c0 c1 c2 c3) s = .next u ∧ u.letters = s.letters ∧ u.cnt = 0#2 ∧
      ((tokenValid s.letters (packToken c0 c1 c2 c3) = false ∧ u.err = 1#2 ∧ u.bytesOut = s.bytesOut) ∨
       (tokenValid s.letters (packToken c0 c1 c2 c3) = true ∧ s.phase = 0#1 ∧ u.err = 0#2 ∧ u.phase = 1#1 ∧
         u.hi = casePattern s.letters (packToken c0 c1 c2 c3) ∧ u.bytesOut = s.bytesOut) ∨
       (tokenValid s.letters (packToken c0 c1 c2 c3) = true ∧ s.phase = 1#1 ∧ u.err = 0#2 ∧ u.phase = 0#1 ∧
         u.bytesOut = s.bytesOut ++ [joinNibbles s.hi (casePattern s.letters (packToken c0 c1 c2 c3))])) := by
  refine ⟨_, runOps_decToken he hc c0 c1 c2 c3, ?_⟩
  obtain ⟨hv, e⟩ | ⟨hv, hp, e⟩ | ⟨hv, hp, e⟩ := tokenStep_cases (packToken c0 c1 c2 c3)
    { s with out := Response.zero, unitOut := .none, tbuf := ⟨c0, c1, c2, c3⟩, cnt := 0#2 } <;> rw [e]
  · exact ⟨rfl, rfl, .inl ⟨hv, rfl, rfl⟩⟩
  · exact ⟨rfl, rfl, .inr (.inl ⟨hv, hp, he, rfl, rfl, rfl⟩)⟩
  · exact ⟨rfl, rfl, .inr (.inr ⟨hv, hp, he, rfl, rfl⟩)⟩

/-- The length check after a run of DEC_CHAR has the stream's first error, and the bytes are those of its token pairs
(R106). -/
theorem runOps_decStr_outcome (cs : List Byte) :
    ∃ t, runOps (decStr cs) s = .next t ∧ t.bytesOut = s.bytesOut ++ bytesAfter s.letters (pendingHigh s) cs ∧
      (endCheck t).err = streamError s.letters (decide (s.phase = 1#1)) cs := by
  induction cs using token_induction generalizing s with
  | short cs h =>
    obtain ⟨t, ht, hcnt, hframe⟩ := runOps_decStr_short he cs (by simpa [hc] using h)
    refine ⟨t, ht, ?_, ?_⟩
    · rw [hframe, bytesAfter_short _ _ h, List.append_nil]
    · have hzero : t.cnt = 0#2 ↔ cs.length = 0 := by
        rw [← BitVec.toNat_inj, hcnt, hc]
        simp
      have het : t.err = 0#2 := by rw [hframe]; exact he
      have hpt : t.phase = s.phase := by rw [hframe]
      rw [endCheck_err_of_noError het, streamError_short _ _ h, hpt]
      simp only [hzero, decide_eq_true_eq]
      rfl
  | token c0 c1 c2 c3 rest ih =>
    obtain ⟨u, hu, hletters, hcu, ⟨hv, heu, hbytes⟩ | ⟨hv, hp, heu, hpu, hhi, hbytes⟩ | ⟨hv, hp, heu, hpu, hbytes⟩⟩ :=
      runOps_decToken_cases he hc c0 c1 c2 c3
    · obtain ⟨t, ht⟩ := runOps_completes (decStr rest) u
      obtain ⟨hbytes', -, -, -, -, het⟩ := runOps_decStr_of_error (by simp [heu]) ht
      refine ⟨t, (runOps_append hu _).trans ht, ?_, ?_⟩
      · rw [hbytes', hbytes, bytesAfter_invalid hv, List.append_nil]
      · rw [endCheck_error (by simp [het, heu]), het, heu, streamError_invalid _ _ hv]
    · obtain ⟨t, ht, hbytes', hend⟩ := ih heu hcu
      refine ⟨t, (runOps_append hu _).trans ht, ?_, ?_⟩
      · rw [hbytes', hbytes, hletters, pendingHigh_high hp, bytesAfter_high hv, pendingHigh_low hpu, hhi]
      · rw [hend, hletters, streamError_valid _ _ hv, hp, hpu]
        rfl
    · obtain ⟨t, ht, hbytes', hend⟩ := ih heu hcu
      refine ⟨t, (runOps_append hu _).trans ht, ?_, ?_⟩
      · rw [hbytes', hbytes, hletters, pendingHigh_low hp, bytesAfter_low hv, pendingHigh_high hpu, List.append_assoc]
        rfl
      · rw [hend, hletters, streamError_valid _ _ hv, hp, hpu]
        rfl

end boundary

/-! ## Decode calls -/

/-- The length check does not read the outputs. -/
theorem endCheck_beginStep_err (s : State) : (endCheck (beginStep s)).err = (endCheck s).err := by
  simp only [endCheck, apply_ite State.err]
  rfl

/-- A run of decoder operations emits no character. -/
theorem runOps_decoderOps_charsOut {is : List Instr} {s t : State} (his : ∀ i ∈ is, isDecoderOp i = true)
    (ht : runOps is s = .next t) : t.charsOut = s.charsOut :=
  runOps_induction (P := fun u => u.charsOut = s.charsOut) ht rfl fun i hi _ _ hu hv =>
    have ⟨hchars, _⟩ := exec_decoderOp_keeps (his i hi) hv
    hchars.trans hu

theorem isDecoderOp_of_mem_decodeCall (cs : List Byte) : ∀ i ∈ decodeCall cs, isDecoderOp i = true := by
  intro i hi
  obtain rfl | ⟨c, -, rfl⟩ | rfl : i = .decClear ∨ (∃ c ∈ cs, .decChar c = i) ∨ i = .decEnd := by
    simpa [decodeCall, decStr] using hi
  all_goals rfl

/-- What a decode call emits, and its first error in ERR and in `out.end_ok` (R106). -/
theorem runOps_decodeCall_outcome (cs : List Byte) (s : State) :
    ∃ t, runOps (decodeCall cs) s = .next t ∧ t.bytesOut = s.bytesOut ++ streamBytes s.letters cs ∧
      t.err = streamError s.letters false cs ∧ t.out.endOk = decide (t.err = 0#2) := by
  obtain ⟨t, ht, hbytes, hend⟩ := runOps_decStr_outcome (s := clearDecoder (beginStep s)) rfl rfl cs
  refine ⟨_, (runOps_decodeCall cs s).trans ((runOps_append ht _).trans (runOps_cons (exec_decEnd t) _)), ?_, ?_, rfl⟩
  · rw [driveEndOk_bytesOut, endCheck_bytesOut, beginStep_bytesOut, hbytes, pendingHigh_high rfl, bytesAfter_none]
    rfl
  · rw [driveEndOk_err, endCheck_beginStep_err, hend]
    rfl

/-- A stream has no error exactly when its tokens are valid and come in pairs (R106). -/
theorem streamError_eq_zero_iff (L : Letters) (cs : List Byte) :
    streamError L false cs = 0#2 ↔ cs.length % 8 = 0 ∧ allTokensValid L cs = true := by
  cases hv : allTokensValid L cs with
  | false => simp [streamError_of_invalid L cs false hv]
  | true =>
    rw [streamError_of_allTokensValid L cs false hv, Bool.toNat_false, Nat.add_zero, and_iff_left rfl]
    split_ifs with h4 h8
    · exact iff_of_false (by decide) (by omega)
    · exact iff_of_false (by decide) (by omega)
    · exact iff_of_true rfl (by omega)

/-- Settles O37: the bytes and the first error of the run are those of the stream, and `out.end_ok` says that there is
no error. (The name `decodeCallOutcome` is the model's own.) -/
theorem decodeCallOutcome_of_stream : Obligations.DecodeCallOutcome := by
  intro cs s
  obtain ⟨t, ht, hbytes, herr, hok⟩ := runOps_decodeCall_outcome cs s
  have hchars := runOps_decoderOps_charsOut (isDecoderOp_of_mem_decodeCall cs) ht
  refine ⟨t, ht, ?_, hbytes, hchars, herr⟩
  rw [decodeCallOutcome, hbytes, List.drop_left, hok, herr]
  simp [streamError_eq_zero_iff]

/-- Settles O38: the error is that of the stream, which has no other than its length gives it. -/
theorem streamLengthDecidesTheError : Obligations.StreamLengthDecidesTheError := by
  intro cs s hv
  obtain ⟨t, ht, -, herr, hok⟩ := runOps_decodeCall_outcome cs s
  rw [streamError_of_allTokensValid s.letters cs false hv, Bool.toNat_false, Nat.add_zero] at herr
  refine ⟨t, ht, ?_⟩
  rw [hok, decide_eq_true_eq, herr]
  split_ifs with h4 h8
  · exact ⟨iff_of_false (by decide) (by omega), iff_of_true rfl h4, iff_of_false (by decide) (by omega),
      iff_of_false (by decide) (by omega)⟩
  · exact ⟨iff_of_false (by decide) (by omega), iff_of_false (by decide) h4, iff_of_true rfl (by omega),
      iff_of_false (by decide) (by omega)⟩
  · exact ⟨iff_of_true rfl (by omega), iff_of_false (by decide) h4, iff_of_false (by decide) (by omega),
      iff_of_true rfl (by omega)⟩

/-! ## Counting the stream -/

/-- `n` is the nibble of the last whole token of `cs`, which is valid (R55). -/
def LastTokenIs (L : Letters) (cs : List Byte) (n : Nibble) : Prop :=
  ∃ before c0 c1 c2 c3 after, cs = before ++ [c0, c1, c2, c3] ++ after ∧
    before.length = 4 * (cs.length / 4 - 1) ∧ classify L (c0 ++ c1 ++ c2 ++ c3) = ⟨true, n⟩

/-- A token before fewer than four characters is the last. -/
theorem lastTokenIs_of_short {L : Letters} {c0 c1 c2 c3 : Byte} {rest : List Byte} (h : rest.length < 4)
    (hv : tokenValid L (packToken c0 c1 c2 c3) = true) :
    LastTokenIs L (c0 :: c1 :: c2 :: c3 :: rest) (casePattern L (packToken c0 c1 c2 c3)) := by
  refine ⟨[], c0, c1, c2, c3, rest, rfl, ?_, classify_of_tokenValid hv⟩
  simp only [List.length_nil, List.length_cons]
  omega

/-- A token in front does not change which token is the last. -/
theorem LastTokenIs.cons_token {L : Letters} {rest : List Byte} {n : Nibble} (h : LastTokenIs L rest n)
    (c0 c1 c2 c3 : Byte) : LastTokenIs L (c0 :: c1 :: c2 :: c3 :: rest) n := by
  obtain ⟨before, d0, d1, d2, d3, after, rfl, hlength, hclass⟩ := h
  refine ⟨c0 :: c1 :: c2 :: c3 :: before, d0, d1, d2, d3, after, rfl, ?_, hclass⟩
  simp only [List.length_append, List.length_cons, List.length_nil] at hlength ⊢
  omega

section counting
variable {s : State} (he : s.err = 0#2) (hc : s.cnt = 0#2)
include he hc

/-- A whole token raises, or it is valid and PHASE and the bytes count it: two tokens make a byte (R20, R100). -/
theorem runOps_decToken_counts (c0 c1 c2 c3 : Byte) :
    ∃ u, runOps (decToken c0 c1 c2 c3) s = .next u ∧ u.letters = s.letters ∧ u.cnt = 0#2 ∧
      (u.err ≠ 0#2 ∨ (u.err = 0#2 ∧ tokenValid s.letters (packToken c0 c1 c2 c3) = true ∧
        2 * u.bytesOut.length + u.phase.toNat = 2 * s.bytesOut.length + s.phase.toNat + 1 ∧
        (u.phase = 1#1 → u.hi = casePattern s.letters (packToken c0 c1 c2 c3)))) := by
  obtain ⟨u, hu, hletters, hcu, ⟨-, heu, -⟩ | ⟨hv, hp, heu, hpu, hhi, hbytes⟩ | ⟨hv, hp, heu, hpu, hbytes⟩⟩ :=
    runOps_decToken_cases he hc c0 c1 c2 c3 <;> refine ⟨u, hu, hletters, hcu, ?_⟩
  · exact .inl (by simp [heu])
  · exact .inr ⟨heu, hv, by simp [hp, hpu, hbytes], fun _ => hhi⟩
  · exact .inr ⟨heu, hv, by simp [hp, hpu, hbytes, Nat.mul_add], fun hpu' => by simp [hpu] at hpu'⟩

/-- From a token boundary without an error the registers count the characters and the tokens, PHASE those before the
stream too; HI pending at the end is the last token's nibble, or was pending before the stream (R20, R105). -/
theorem runOps_decStr_counts {cs : List Byte} {t : State} (ht : runOps (decStr cs) s = .next t) (het : t.err = 0#2) :
    t.cnt.toNat = cs.length % 4 ∧
      2 * t.bytesOut.length + t.phase.toNat = 2 * s.bytesOut.length + s.phase.toNat + cs.length / 4 ∧
      (t.phase = 1#1 →
        (s.phase = 1#1 ∧ cs.length < 4 ∧ t.hi = s.hi) ∨ LastTokenIs s.letters cs t.hi) := by
  induction cs using token_induction generalizing s with
  | short cs h =>
    obtain ⟨u, hu, hcnt, hframe⟩ := runOps_decStr_short he cs (by simpa [hc] using h)
    cases ht.symm.trans hu
    have hphase : t.phase = s.phase := by rw [hframe]
    have hbytes : t.bytesOut = s.bytesOut := by rw [hframe]
    rw [hcnt, hc, hphase, hbytes, Nat.div_eq_of_lt h, Nat.mod_eq_of_lt h]
    exact ⟨Nat.zero_add _, rfl, fun hp => .inl ⟨hp, h, by rw [hframe]⟩⟩
  | token c0 c1 c2 c3 rest ih =>
    have hlength : (c0 :: c1 :: c2 :: c3 :: rest).length = rest.length + 4 := rfl
    obtain ⟨u, hu, hletters, hcu, heu | ⟨heu, hv, hcount, hhi⟩⟩ := runOps_decToken_counts he hc c0 c1 c2 c3 <;>
      rw [decStr_token, runOps_append hu] at ht
    · obtain ⟨-, -, -, -, -, het'⟩ := runOps_decStr_of_error heu ht
      exact absurd (het'.symm.trans het) heu
    · obtain ⟨hcnt, hcount', hlast⟩ := ih heu hcu ht
      refine ⟨by omega, by omega, fun hpt => .inr ?_⟩
      obtain ⟨hpu, hshort, hti⟩ | htoken := hlast hpt
      · rw [hti, hhi hpu]
        exact lastTokenIs_of_short hshort hv
      · exact (hletters ▸ htoken).cons_token c0 c1 c2 c3

end counting

/-- Settles O36: PHASE is 0 at the start of a stream, so it and the bytes are the two digits of the number of tokens,
counted in pairs. -/
theorem registersCountTheStream : Obligations.RegistersCountTheStream := by
  intro cs s ⟨hp, hc, he⟩
  obtain ⟨t, ht⟩ := runOps_completes (decStr cs) s
  refine ⟨t, ht, fun het => ?_⟩
  obtain ⟨hcnt, hcount, hlast⟩ := runOps_decStr_counts he hc ht het
  have hstart : s.phase.toNat = 0 := by rw [hp]; rfl
  have hbit := t.phase.isLt
  refine ⟨hcnt, by omega, by omega, fun hpt => ?_⟩
  obtain ⟨hps, -, -⟩ | htoken := hlast hpt
  · simp [hp] at hps
  · exact htoken

/-! ## Decoding what was encoded -/

/-- An encoded byte is the characters of its two tokens (R60). -/
theorem encodeByte_eq (L : Letters) (b : Byte) :
    encodeByte L b =
      [caseChar L (hiNibble b) 0, caseChar L (hiNibble b) 1, caseChar L (hiNibble b) 2, caseChar L (hiNibble b) 3,
       caseChar L (loNibble b) 0, caseChar L (loNibble b) 1, caseChar L (loNibble b) 2, caseChar L (loNibble b) 3] := by
  simp only [encodeByte, charsOfWord, streamChar_packPair, tokenChar_caseEncode]
  rfl

/-- An encoded stream is valid and decodes to its bytes (R61, R106). -/
theorem decode_encodeStream (L : Letters) (bs : List Byte) :
    streamBytes L (encodeStream L bs) = bs ∧ allTokensValid L (encodeStream L bs) = true ∧
      (encodeStream L bs).length % 8 = 0 := by
  induction bs with
  | nil => exact ⟨rfl, rfl, rfl⟩
  | cons b bs ih =>
    obtain ⟨hbytes, hvalid, hlength⟩ := ih
    have htoken : ∀ n, packToken (caseChar L n 0) (caseChar L n 1) (caseChar L n 2) (caseChar L n 3) = caseEncode L n :=
      fun _ => rfl
    have hstream : encodeStream L (b :: bs) = encodeByte L b ++ encodeStream L bs := rfl
    rw [hstream, encodeByte_eq]
    refine ⟨?_, ?_, ?_⟩
    · simp [streamBytes, htoken, hbytes, joinNibbles_eq_append, append_nibbles]
    · simp [allTokensValid, htoken, hvalid]
    · simp only [List.length_append, List.length_cons, List.length_nil]
      omega

/-- Settles O39: the characters the encode call appends are the encoded stream, and the outcome of a decode call is that
of its characters. -/
theorem decodingUndoesEncoding : Obligations.DecodingUndoesEncoding := by
  intro bs s h
  obtain ⟨u, hu, hchars, -⟩ := encodeCallEmitsTheEncodedStream bs s h
  have hletters : u.letters = s.letters :=
    runOps_induction (P := fun v => v.letters = s.letters) hu rfl fun i _ v w hv hw =>
      (exec_keeps_letters i v w hw).trans hv
  obtain ⟨t, ht, houtcome, -⟩ := decodeCallOutcome_of_stream (u.charsOut.drop s.charsOut.length) u
  obtain ⟨hbytes, hvalid, hlength⟩ := decode_encodeStream s.letters bs
  refine ⟨u, t, hu, ht, ?_⟩
  rw [houtcome, hchars, List.drop_left, hletters, hbytes, hvalid, hlength]
  rfl

end Sys2Proof.Machine
